-- ==== Sys2Proof/Word.lean ====
section
/-! DEFINITION. The words of the Binary Field Decoder and the shape of its two address spaces.

`spec/20_memory.md` R40, R41 give two spaces: the byte-addressed input buffer and the layout-table ROM of 16-bit
words. Both are held in the one canonical form `Memory`: (address, contents) pairs at strictly rising addresses, no
entry equal to what an unlisted address reads as. The operations over them stand in `Machine/Memory.lean`. -/

namespace Sys2Proof

/-- A layout-table entry (R60, R70: every descriptor is exactly 16 bits). -/
abbrev Word := BitVec 16

/-- A byte of the input buffer (R5: `BYTE` = 8; R40). -/
abbrev Byte := BitVec 8

/-- An address space of `w`-bit cells, sparse and in canonical form. `Memory 8` is a list of `Host.Cell`. -/
abbrev Memory (w : Nat) := List (Nat × BitVec w)

/-- The input buffer of one request (R22 `buf`, R40). -/
abbrev Buffer := Memory 8

/-- The layout-table ROM of one version (R21, R41), indexed by entry index. -/
abbrev Table := Memory 16

end Sys2Proof
end

