-- ==== Sys2Proof/Config.lean ====
section
/-! DEFINITION. The implementation parameters of the block (R5, R21, R163) as one plain structure.

The values are OPEN in the spec (decisions D4, D17). A state carries its `Build`, so a claim about every state is a
claim about every choice of the parameters; the values the machine has at reset are the uninterpreted constant
`Config.build` of `Machine/Parameters.lean`, of which only the spec's own constraints are known. -/

namespace Sys2Proof

/-- The two format versions (R2): A is the minimal single-oscillator layout, B the full dual-oscillator one. -/
inductive Version
  | a
  | b
deriving DecidableEq, Repr

/-- The build-time parameters (R5): the capacities, and the contents of the layout-table ROM (R21). -/
structure Build where
  /-- `MAX_LEN`: buffer capacity in bytes, the largest `len` a DECODE accepts. -/
  maxLen : Nat
  /-- `MAX_ENTRIES`: descriptor slots per version table, END included. -/
  maxEntries : Nat
  /-- `MAX_FIELDS`: output slots in a record. -/
  maxFields : Nat
  /-- `TABLE[0]`, the words of `LAYOUT_A`, every further slot `0x0000`. -/
  tableA : Table
  /-- `TABLE[1]`, the words of `LAYOUT_B`, every further slot `0x0000`. -/
  tableB : Table
deriving DecidableEq, Repr

end Sys2Proof
end

