-- ==== Sys2Proof/Syntax.lean ====
section
/-! DEFINITION. What the block executes: the eight descriptor kinds of a layout table (R61) and the two request
operations (R67), one constructor per row of `spec/opcode_table.json`. -/

namespace Sys2Proof

/-- The operand `n` of a descriptor is a count (R63): bytes for STR and SKIP, bits for BITS and PAD. The two request
operations take their operands from the request's own fields (R22), not from the `req_op` bits. -/
inductive Instr
  /-- END: end of table (R88). -/
  | endTable
  /-- STR n: byte string of `n` bytes (R101). -/
  | str (n : Nat)
  /-- U8: 8-bit unsigned integer (R102). -/
  | u8
  /-- U16LE: 16-bit unsigned integer, little-endian (R103). -/
  | u16le
  /-- U16BE: 16-bit unsigned integer, big-endian (R104). -/
  | u16be
  /-- BITS n: packed sub-byte field of `n` bits, MSB-first (R120). -/
  | bits (n : Nat)
  /-- SKIP n: skip `n` whole bytes (R105). -/
  | skip (n : Nat)
  /-- PAD n: skip `n` padding bits inside a byte (R121). -/
  | pad (n : Nat)
  /-- DECODE: the table walk (R81). -/
  | decode
  /-- TABLE_READ: inspection of the layout table (R92). -/
  | tableRead
deriving DecidableEq, Repr

/-- An encoded instruction: a 16-bit descriptor word (R60) or the 2-bit `req_op` of a request (R67). -/
inductive Encoded
  | desc (w : Word)
  | req (op : BitVec 2)
deriving DecidableEq, Repr

/-- Why a word is no instruction: the cases of R69, and the reserved request kinds of R67. -/
inductive Illegal
  /-- R69 (a): `op` is in `0x8 .. 0xF`. -/
  | reservedOp
  /-- R69 (b): `rsv` is not zero (R62). -/
  | reservedBits
  /-- R69 (c): `n` is outside the legal range of R63 for its `op`. -/
  | badCount
  /-- R67: `req_op` is `0b10` or `0b11`. -/
  | reservedRequest
deriving DecidableEq, Repr

/-- The named checks of a layout table (R83). -/
inductive WfCheck
  /-- Legal: every word before END is a legal descriptor. -/
  | wf1
  /-- Ends: there is an END at an index below `MAX_ENTRIES`. -/
  | wf2
  /-- Byte-aligned: STR, U8, U16LE, U16BE and SKIP start at a byte boundary. -/
  | wf3
  /-- In one byte: BITS n and PAD n stay inside one byte. -/
  | wf4
  /-- Ends aligned: END stands at a byte boundary. -/
  | wf5
  /-- Fits: the required length is at most `MAX_LEN`. -/
  | wf6
  /-- Record fits: at most `MAX_FIELDS` output descriptors. -/
  | wf7
  /-- Padded: every slot after END holds `0x0000`. -/
  | wf8
deriving DecidableEq, Repr

end Sys2Proof
end

