-- ==== Sys2Proof/WellFormed.lean ====
section
/-! DEFINITION. Which instruction terms exist: the operand ranges of R63. -/

namespace Sys2Proof

/-- R63: the legal counts of each kind. STR and SKIP count 1 to 255 bytes, BITS 1 to 8 bits, PAD 1 to 7 bits; the
other kinds and the two request operations have no count. -/
def Instr.wf : Instr → Bool
  | .endTable => true
  | .str n => decide (1 ≤ n) && decide (n ≤ 255)
  | .u8 => true
  | .u16le => true
  | .u16be => true
  | .bits n => decide (1 ≤ n) && decide (n ≤ 8)
  | .skip n => decide (1 ≤ n) && decide (n ≤ 255)
  | .pad n => decide (1 ≤ n) && decide (n ≤ 7)
  | .decode => true
  | .tableRead => true

/-- Whether an instruction is a descriptor (R61) rather than a request operation (R67). -/
def Instr.isDescriptor : Instr → Bool
  | .decode => false
  | .tableRead => false
  | .endTable => true
  | .str _ => true
  | .u8 => true
  | .u16le => true
  | .u16be => true
  | .bits _ => true
  | .skip _ => true
  | .pad _ => true

end Sys2Proof
end

