-- ==== Sys2Proof/Decode.lean ====
section
/-! DEFINITION. The encoding of descriptors and requests (R60 to R70): decoding, total on all words and rejecting by
name, and after it the encoder, written from the same tables. -/

namespace Sys2Proof

/-- R7: `v[hi:lo]`, bits `hi` down to `lo` of `v`, inclusive, as an unsigned value of `hi - lo + 1` bits. -/
def slice (v hi lo : Nat) : Nat := v / 2 ^ lo % 2 ^ (hi + 1 - lo)

/-- R60: `op = word[15:12]`. -/
def opField (w : Word) : Nat := slice w.toNat 15 12

/-- R60: `rsv = word[11:8]`. -/
def rsvField (w : Word) : Nat := slice w.toNat 11 8

/-- R60, R63: `n = word[7:0]`, zero-extended, never sign-extended. -/
def countField (w : Word) : Nat := slice w.toNat 7 0

/-- R61: the kind that `op` names, with its count operand `n`. A kind whose width is implied takes `n = 0` only
(R63); the ranges of the other counts are checked by `Instr.wf`. -/
def kindOf : Nat → Nat → Option Instr
  | 0x0, 0 => some .endTable
  | 0x1, n => some (.str n)
  | 0x2, 0 => some .u8
  | 0x3, 0 => some .u16le
  | 0x4, 0 => some .u16be
  | 0x5, n => some (.bits n)
  | 0x6, n => some (.skip n)
  | 0x7, n => some (.pad n)
  | _, _ => none

/-- R84 `Dec`: the descriptor a 16-bit word stands for, or the case of R69 that makes the word illegal. -/
def decodeDesc (w : Word) : Except Illegal Instr :=
  if 0x8 ≤ opField w then .error .reservedOp
  else if rsvField w ≠ 0 then .error .reservedBits
  else
    match kindOf (opField w) (countField w) with
    | none => .error .badCount
    | some e => if e.wf then .ok e else .error .badCount

/-- R67: the request kind that `req_op` names; `0b10` and `0b11` are reserved. -/
def decodeReq (op : BitVec 2) : Except Illegal Instr :=
  if op = 0b00#2 then .ok .decode
  else if op = 0b01#2 then .ok .tableRead
  else .error .reservedRequest

/-- Decoding of either kind of encoded instruction. -/
def decode : Encoded → Except Illegal Instr
  | .desc w => decodeDesc w
  | .req op => decodeReq op

/-- The instruction the decoder reads from a row of the opcode table: a request row has the two bits `1:0` (given in one
byte, whose other bits belong to no field, log entry 5), a descriptor row the 16 bits of its word. -/
def decodeTableWord (nbits w : Nat) : Option Instr :=
  if nbits ≤ 8 then (decodeReq (BitVec.ofNat 2 w)).toOption
  else if nbits = 16 then (decodeDesc (BitVec.ofNat 16 w)).toOption
  else none

/-- A descriptor word with `rsv = 0` (R60, R71): `op` in bits 15:12, `n` in bits 7:0. -/
def descWord (op n : Nat) : Encoded := .desc (BitVec.ofNat 16 (4096 * op + n))

/-- R71, R67: the word of each instruction. -/
def encode : Instr → Encoded
  | .endTable => descWord 0x0 0
  | .str n => descWord 0x1 n
  | .u8 => descWord 0x2 0
  | .u16le => descWord 0x3 0
  | .u16be => descWord 0x4 0
  | .bits n => descWord 0x5 n
  | .skip n => descWord 0x6 n
  | .pad n => descWord 0x7 n
  | .decode => .req 0b00#2
  | .tableRead => .req 0b01#2

/-- The layout-table word of a descriptor (R21: entry `i` is word `i`); a request operation has none. -/
def encodeDesc (e : Instr) : Option Word :=
  match encode e with
  | .desc w => some w
  | .req _ => none

end Sys2Proof
end

