-- ==== Sys2Proof/Machine/Memory.lean ====
section
/-! DEFINITION. The operations over an address space in canonical form (R40, R41).

What an unlisted address reads as is `Memory.blank`, one definition: for the table ROM the spec gives it, "every slot
after `LAYOUT_v`'s END descriptor holds `0x0000`" (R21); for the buffer it is how a sparse list writes down a buffer
whose bytes the request always carries in full (log entry 4). -/

namespace Sys2Proof

/-- The contents of an address the list does not mention. -/
def Memory.blank (w : Nat) : BitVec w := 0#w

/-- `MemRead(a, 1)` of R10, and the table read of R84 and R92: the cell at address `a`. -/
def Memory.read {w : Nat} : Memory w → Nat → BitVec w
  | [], _ => Memory.blank w
  | (b, x) :: m, a => if a = b then x else Memory.read m a

/-- Put `x` at address `a`, keeping the canonical form. The block itself never writes (R44): this is how a buffer or a
table is put together outside it. -/
def Memory.write {w : Nat} : Memory w → Nat → BitVec w → Memory w
  | [], a, x => if x = Memory.blank w then [] else [(a, x)]
  | (b, y) :: m, a, x =>
    if a < b then (if x = Memory.blank w then (b, y) :: m else (a, x) :: (b, y) :: m)
    else if a = b then (if x = Memory.blank w then m else (a, x) :: m)
    else (b, y) :: Memory.write m a x

/-- The canonical form from address `a` on: addresses strictly rising, none below `a`, no blank cell. -/
def Memory.wfFrom {w : Nat} : Nat → Memory w → Bool
  | _, [] => true
  | a, (b, x) :: m => decide (a ≤ b) && decide (x ≠ Memory.blank w) && Memory.wfFrom (b + 1) m

/-- The canonical form, so that equal memories are equal lists. -/
def Memory.wf {w : Nat} (m : Memory w) : Bool := Memory.wfFrom 0 m

/-- The cells `xs` at addresses `a`, `a + 1`, … -/
def Memory.ofListFrom {w : Nat} : Nat → List (BitVec w) → Memory w
  | _, [] => []
  | a, x :: xs =>
    if x = Memory.blank w then Memory.ofListFrom (a + 1) xs else (a, x) :: Memory.ofListFrom (a + 1) xs

/-- The cells `xs` at addresses 0, 1, …: a file's bytes as a buffer (R22), a layout's words as a table (R21). -/
def Memory.ofList {w : Nat} (xs : List (BitVec w)) : Memory w := Memory.ofListFrom 0 xs

/-- The `n` cells from address `a` on, in ascending address order (R43). -/
def Memory.readList {w : Nat} (m : Memory w) (a : Nat) : Nat → List (BitVec w)
  | 0 => []
  | n + 1 => m.read a :: Memory.readList m (a + 1) n

end Sys2Proof
end

