-- ==== Sys2Proof/Machine/Layout.lean ====
section
/-! DEFINITION. The geometry of a layout table (R64, R65, R85, R51), its well-formedness (R83), and what the spec
settles of the two tables (R5, R95, R96, R163). -/

namespace Sys2Proof

/-- `TABLE[v]` (R21, R82): two explicit tables, never unified. -/
def Build.table (b : Build) : Version → Table
  | .a => b.tableA
  | .b => b.tableB

/-- R66: `ver` 0 is version A, 1 is version B, and 2 to 255 name no version. -/
def Version.ofSelector (ver : BitVec 8) : Option Version :=
  if ver = 0#8 then some .a
  else if ver = 1#8 then some .b
  else none

/-- R64: `W(e)`, the number of stream bits a descriptor consumes. The request operations are no descriptors. -/
def Instr.width : Instr → Nat
  | .endTable => 0
  | .str n => 8 * n
  | .u8 => 8
  | .u16le => 16
  | .u16be => 16
  | .bits n => n
  | .skip n => 8 * n
  | .pad n => n
  | .decode => 0
  | .tableRead => 0

/-- R65: the output descriptors, which emit exactly one record value each. -/
def Instr.isOutput : Instr → Bool
  | .endTable => false
  | .str _ => true
  | .u8 => true
  | .u16le => true
  | .u16be => true
  | .bits _ => true
  | .skip _ => false
  | .pad _ => false
  | .decode => false
  | .tableRead => false

/-- The descriptors that the walk runs through `Exec` (R100): every kind but END, which R88 handles first. -/
def Instr.inWalk : Instr → Bool
  | .endTable => false
  | .str _ => true
  | .u8 => true
  | .u16le => true
  | .u16be => true
  | .bits _ => true
  | .skip _ => true
  | .pad _ => true
  | .decode => false
  | .tableRead => false

/-- The check of R83 that descriptor `e` fails when it stands at cursor `c`, if any: WF1 for a term R63 rules out, WF3
and WF5 for the kinds that stand at a byte boundary, WF4 for the kinds that stay inside one byte (R47). -/
def Instr.defect (e : Instr) (c : Nat) : Option WfCheck :=
  if e.wf = false then some .wf1
  else
    match e with
    | .endTable => if c % 8 = 0 then none else some .wf5
    | .str _ => if c % 8 = 0 then none else some .wf3
    | .u8 => if c % 8 = 0 then none else some .wf3
    | .u16le => if c % 8 = 0 then none else some .wf3
    | .u16be => if c % 8 = 0 then none else some .wf3
    | .skip _ => if c % 8 = 0 then none else some .wf3
    | .bits n => if c % 8 + n ≤ 8 then none else some .wf4
    | .pad n => if c % 8 + n ≤ 8 then none else some .wf4
    | .decode => some .wf1
    | .tableRead => some .wf1

/-- The cursor after the descriptors `es`, from cursor `c` on (R26, R64). -/
def cursorAfter (c : Nat) (es : List Instr) : Nat := es.foldl (fun c e => c + e.width) c

/-- How many of the descriptors are output descriptors (R65): the output ordinal of the one that follows them. -/
def outputCount (es : List Instr) : Nat := (es.filter Instr.isOutput).length

/-- The words of slots `0 .. n - 1` of a table. -/
def Table.slots (T : Table) (n : Nat) : List Word := (List.range n).map (Memory.read T)

/-- The words before the first END (R83: `m` is the least index with `T[m] = 0x0000`). -/
def Table.entryWords (T : Table) (n : Nat) : List Word := (T.slots n).takeWhile (fun w => w != 0x0000#16)

/-- The descriptors `e_0 .. e_{m-1}` before END, in table order. -/
def Table.program (T : Table) (n : Nat) : List Instr :=
  (T.entryWords n).filterMap (fun w => (decodeDesc w).toOption)

/-- A descriptor in its place: its entry index `j`, its cursor `c_j` and the descriptor `e_j` (R83). -/
structure Placed where
  entry  : Nat
  cursor : Nat
  desc   : Instr
deriving DecidableEq, Repr

/-- The descriptors in their places, from entry `j` and cursor `c` on. -/
def place : Nat → Nat → List Instr → List Placed
  | _, _, [] => []
  | j, c, e :: es => ⟨j, c, e⟩ :: place (j + 1) (c + e.width) es

/-- The first entry whose descriptor fails the check `k` where it stands. -/
def firstDefect (k : WfCheck) (ps : List Placed) : Option (WfCheck × Nat) :=
  (ps.find? (fun p => p.desc.defect p.cursor == some k)).map (fun p => (k, p.entry))

/-- R83: the first check a table fails, with the index it fails at; `none` for a well-formed table. WF2 comes first,
because the other checks are stated in terms of its `m` (log entry 9). -/
def Table.check (T : Table) (maxLen maxEntries maxFields : Nat) : Option (WfCheck × Nat) :=
  let ws := T.entryWords maxEntries
  let m := ws.length
  let es := T.program maxEntries
  let cm := cursorAfter 0 es
  if maxEntries ≤ m then some (.wf2, maxEntries)
  else
    ((ws.findIdx? (fun w => (decodeDesc w).toOption.isNone)).map (fun j => (WfCheck.wf1, j))).or <|
    (firstDefect .wf3 (place 0 0 es)).or <|
    (firstDefect .wf4 (place 0 0 es)).or <|
    if cm % 8 ≠ 0 then some (.wf5, m)
    else if maxLen < cm / 8 then some (.wf6, m)
    else if maxFields < outputCount es then some (.wf7, m)
    else (((T.slots maxEntries).drop (m + 1)).findIdx? (fun w => w != 0x0000#16)).map (fun j => (.wf8, m + 1 + j))

/-- The descriptors of version `v` before its END. -/
def Build.program (b : Build) (v : Version) : List Instr := (b.table v).program b.maxEntries

/-- R85: the required length `R(v)` in bytes. -/
def Build.requiredLen (b : Build) (v : Version) : Nat := cursorAfter 0 (b.program v) / 8

/-- R83 for version `v` of a block: the refusal by name, giving the check and the index. -/
def Build.check (b : Build) (v : Version) : Option (WfCheck × Nat) :=
  (b.table v).check b.maxLen b.maxEntries b.maxFields

/-- A table as data: canonical, and no slot at or past `MAX_ENTRIES` (R21). -/
def Table.fitsRom (T : Table) (maxEntries : Nat) : Bool :=
  Memory.wf T && T.all (fun cell => decide (cell.1 < maxEntries))

/-- Why a block cannot be built from some parameters (R83, R163). -/
inductive BuildRefusal
  /-- The table of version `v` fails the named check at index `j` (R83). -/
  | illFormedTable (v : Version) (check : WfCheck) (j : Nat)
  /-- The table of version `v` is no ROM of `MAX_ENTRIES` slots (R21): it lists a slot past the last, or is not canonical. -/
  | outsideRom (v : Version)
deriving DecidableEq, Repr

/-- Why version `v` alone keeps the block from being built. -/
def Build.tableRefusal (b : Build) (v : Version) : Option BuildRefusal :=
  match b.check v with
  | some (k, j) => some (.illFormedTable v k j)
  | none => if (b.table v).fitsRom b.maxEntries then none else some (.outsideRom v)

/-- R83, R163: why the block cannot be built, version A first (log entry 9); `none` when it can. -/
def Build.refusal (b : Build) : Option BuildRefusal := (b.tableRefusal .a).or (b.tableRefusal .b)

/-- Parameters a block can be built from (R83, R163): both tables pass every check. -/
def Build.wf (b : Build) : Bool := b.refusal.isNone

/-- R51: where one output ordinal stands, the source's columns (byte offset, bit width, MSB-first bit position). -/
structure FieldPos where
  byteOffset : Nat
  bitWidth   : Nat
  bitPos     : Nat
deriving DecidableEq, Repr

/-- R51: the field map of a table's descriptors, one entry per output ordinal in order. -/
def fieldMap (es : List Instr) : List FieldPos :=
  ((place 0 0 es).filter (fun p => p.desc.isOutput)).map
    (fun p => ⟨p.cursor / 8, p.desc.width, p.cursor % 8⟩)

/-- R95: what is settled of `LAYOUT_A`. Its output fields are the header, the name, a 2-bit wave selector and a 2- or
3-bit octave selector, the first two at entries 0 and 1 (so at bytes 0 and 4); gaps are open. -/
def knownContentA (es : List Instr) : Bool :=
  (es.take 2 == [.str 4, .str 16])
    && (es.filter Instr.isOutput == [.str 4, .str 16, .bits 2, .bits 2]
      || es.filter Instr.isOutput == [.str 4, .str 16, .bits 2, .bits 3])

/-- How often `e` occurs. -/
def occurrences (e : Instr) (es : List Instr) : Nat := (es.filter (fun d => d == e)).length

/-- The knobs R96 names, one each and two mixer levels: pitch and shape of two oscillators, cross-mod depth,
`vco2_pitch_eg_int`, the mixer levels, `filter_cutoff`, resonance, filter EG-int, four stages of two envelopes, LFO rate
and LFO int (log entry 8). -/
def namedKnobs : Nat := 2 * 2 + 1 + 1 + 2 + 1 + 1 + 1 + 2 * 4 + 1 + 1

/-- R96: what is settled of `LAYOUT_B`. The header and the name at entries 0 and 1; the other output fields are `u8`
knobs, at least one for each the rule names, packed fields of 1 to 3 bits (three 1-bit toggles, at least nine 2-bit
selectors, one 3-bit octave) and one `u16le`, the tempo, after byte 50. Order, offsets and gaps are open (log entry 8). -/
def knownContentB (es : List Instr) : Bool :=
  (es.take 2 == [.str 4, .str 16])
    && ((es.drop 2).filter Instr.isOutput).all
        (fun e => e == .u8 || e == .bits 1 || e == .bits 2 || e == .bits 3 || e == .u16le)
    && decide (namedKnobs ≤ occurrences .u8 es)
    && decide (occurrences (.bits 1) es = 3)
    && decide (9 ≤ occurrences (.bits 2) es)
    && decide (occurrences (.bits 3) es = 1)
    && decide (occurrences .u16le es = 1)
    && (place 0 0 es).all (fun p => p.desc != .u16le || decide (50 < p.cursor / 8))

/-- The bytes a SKIP passes (R105); none for any other kind. -/
def Instr.skipBytes : Instr → Nat
  | .endTable => 0
  | .str _ => 0
  | .u8 => 0
  | .u16le => 0
  | .u16be => 0
  | .bits _ => 0
  | .skip n => n
  | .pad _ => 0
  | .decode => 0
  | .tableRead => 0

/-- The lengths in bytes of a layout's skip regions in order, a region being a run of SKIPs with nothing between them:
the form in which R96 compares the two versions (log entry 8). -/
def skipRegions (es : List Instr) : List Nat :=
  ((es.splitOnP (fun e => e.skipBytes == 0)).map (fun r => (r.map Instr.skipBytes).sum)).filter (fun n => n != 0)

/-- R163: what must hold before the block accepts a request. The capacities are chosen in the ranges of R5, the tables
are loaded, END-padded and pass every check, `R(B) = 102`, and the buffer holds the longer of the two formats. -/
def Build.meetsRequirements (b : Build) : Bool :=
  decide (1 ≤ b.maxEntries) && b.wf && decide (b.requiredLen .b = 102)
    && decide (max (b.requiredLen .a) (b.requiredLen .b) ≤ b.maxLen)

/-- R5: what is known of the parameters of the block itself: the requirements of R163, and what R95 and R96 settle of its
two layouts, the skip-region lengths of B differing from those of A among it. -/
def Build.conforms (b : Build) : Bool :=
  b.meetsRequirements
    && knownContentA (b.program .a)
    && knownContentB (b.program .b)
    && decide (skipRegions (b.program .a) ≠ skipRegions (b.program .b))

/-- `ceil(log2 n)`, with value 0 for `n ≤ 1`. -/
def clog2 (n : Nat) : Nat := if n ≤ 1 then 0 else Nat.log2 (n - 1) + 1

/-- R5: `LEN_W`, the width of the `len` request field. -/
def Build.lenW (b : Build) : Nat := clog2 (b.maxLen + 1)

/-- R5: `IDX_W`, the width of the entry index and of the `idx` and `fail_entry` fields. -/
def Build.idxW (b : Build) : Nat := clog2 (b.maxEntries + 1)

/-- R5: `CUR_W`, the width of the bit cursor. -/
def Build.curW (b : Build) : Nat := clog2 (8 * b.maxLen + 1)

/-- R23, R24: the width of `k` and of the `nfields` response field. -/
def Build.fieldsW (b : Build) : Nat := clog2 (b.maxFields + 1)

end Sys2Proof
end

