-- ==== Sys2Proof/Machine/Parameters.lean ====
section
/-! DEFINITION. Building the block (R83, R163), and the parameters it is built with (R5): an uninterpreted constant of
which only the spec's requirements are known.

"A model builds these as parameters with proofs of the checks, so an ill-formed configuration cannot be constructed"
(R163): a `Block` pairs the parameters with the proof that every check passes, and a state holds a `Block`, so that the
machine is stated "only over tables that pass them (a subtype)" (R83). The parameters of the block itself meet more, the
rest of R163 with R95 and R96: `Config.ValidBuild`. `Config.witness` only shows that some parameters meet it (Lean asks
that the type be inhabited before it admits the constant); it is no value of the constant, and nothing can be proved from
it about `Config.build` (log entry 2). -/

namespace Sys2Proof

/-- A block that has been built: its parameters, with the proof that both tables pass every check (R83). -/
structure Block where
  build : Build
  ok : build.wf = true
deriving DecidableEq, Repr

/-- Build a block (R163), or refuse the parameters by name, giving the check and the index (R83). -/
def Build.construct (b : Build) : Except BuildRefusal Block :=
  match h : b.refusal with
  | some r => .error r
  | none => .ok { build := b, ok := by rw [Build.wf, h]; rfl }

/-- A layout that meets R95, for `Config.witness`. -/
def Config.witnessA : List Instr := [.str 4, .str 16, .bits 2, .bits 2, .pad 4, .endTable]

/-- A layout that meets R96, for `Config.witness`. -/
def Config.witnessB : List Instr :=
  [.str 4, .str 16] ++ List.replicate 21 .u8 ++ List.replicate 9 (.bits 2)
    ++ [.bits 1, .bits 1, .bits 1, .bits 3, .skip 56, .u16le, .endTable]

/-- Parameters that meet every requirement of R5, R95, R96 and R163. -/
def Config.witness : Build :=
  { maxLen := 102, maxEntries := 64, maxFields := 64,
    tableA := Memory.ofList (Config.witnessA.filterMap encodeDesc),
    tableB := Memory.ofList (Config.witnessB.filterMap encodeDesc) }

/-- Parameters with the proof of everything that the spec settles of them (R5, R95, R96, R163). -/
structure Config.ValidBuild where
  build : Build := Config.witness
  ok : build.conforms = true := by decide +kernel
deriving Inhabited

/-- The parameters this block is built with: OPEN in the spec (decisions D4, D17), uninterpreted here. -/
opaque Config.build : Config.ValidBuild

/-- Everything a block needs to be built is among what is known of its parameters (R163). -/
theorem Build.wf_of_conforms {b : Build} (h : b.conforms = true) : b.wf = true := by
  simp only [Build.conforms, Build.meetsRequirements, Bool.and_eq_true] at h
  exact h.1.1.1.1.1.2

/-- The block itself, built with its parameters (R163). -/
def Config.block : Block := { build := Config.build.build, ok := Build.wf_of_conforms Config.build.ok }

end Sys2Proof
end

