-- ==== Sys2Proof/Machine/State.lean ====
section
/-! DEFINITION. The state of the block as plain data, and the reasons a step can stop.

The block itself holds its read-only configuration (R21) and, only while a DECODE runs, the working state of R24; the
requests waiting at its port and the responses it has given are the interface to the host (R22, R23, R97). It has no
registers, flags, modes, masks, timers or power states (R28, R149 to R158), so none stand here. -/

namespace Sys2Proof.Machine

/-- A record value (R27): a string of bytes, or an unsigned value with its width. -/
inductive Value
  | str (bytes : List Byte)
  | uns (width : Nat) (value : Nat)
deriving DecidableEq, Repr

/-- A request (R22). The widths of `len` and `idx` depend on the capacities (R5), so they are numbers here and
`Request.encodable` of `Safety.lean` states the widths. -/
structure Request where
  /-- `req_op`: the request kind (R67). -/
  reqOp : BitVec 2
  /-- `ver`: the format-version selector (R66). -/
  ver : BitVec 8
  /-- `len`: the number of valid bytes in `buf`. -/
  len : Nat
  /-- `buf`: the input buffer, carried by value (R50). -/
  buf : Buffer
  /-- `idx`: the entry index of a TABLE_READ. -/
  idx : Nat
deriving DecidableEq, Repr

/-- A response (R11, R23, R140): the results of DECODE and TABLE_READ, each with exactly the fields that are valid for
it, so that a field that is not valid carries no value. `Machine/Flags.lean` gives the fields one by one. -/
inductive Response
  /-- OK of a DECODE: the record and `nfields` (R88). -/
  | okDecode (record : List Value) (nfields : Nat)
  /-- OK of a TABLE_READ: the descriptor word (R92). -/
  | okTableRead (word : Word)
  /-- TruncatedInput: the ordinal of the last output descriptor read in full, or none, and the failing entry (R141). -/
  | truncatedInput (lastField : Option Nat) (failEntry : Nat)
  /-- BadVersion (R145). -/
  | badVersion
  /-- BadRequest (R146). -/
  | badRequest
deriving DecidableEq, Repr

/-- The working state of one DECODE (R24), with the request's snapshot it reads (R50). The selected table `T` is
`TABLE[ver]` (R82), so it is kept as its version. -/
structure Txn where
  /-- The version whose table is walked: `T = TABLE[ver]`. -/
  ver : Version
  /-- The request's buffer, one snapshot (R50). -/
  buf : Buffer
  /-- The request's number of valid bytes. -/
  len : Nat
  /-- `i`: entry index of the next descriptor, the sequencer (R25). -/
  i : Nat
  /-- `c`: the bit cursor (R26). -/
  c : Nat
  /-- `k`: number of values emitted so far. -/
  k : Nat
  /-- `rec`: the record under construction (R27). -/
  record : List Value
deriving DecidableEq, Repr

/-- The state of one BFD instance and of its port. -/
structure State where
  /-- Capacities and layout-table ROM, fixed when the block is built (R5, R21), with the proof that they passed every
  check (R83, R163). No step changes it. -/
  block : Block
  /-- The DECODE in progress, or none (R24, R31). -/
  txn : Option Txn
  /-- The host's requests not yet taken, in the order it made them (R97, R165). -/
  requests : List Request
  /-- The responses given, in order (R165). They are the host's: no step reads them (R29). -/
  responses : List Response
deriving DecidableEq, Repr

/-- The parameters the block was built with. -/
abbrev State.build (s : State) : Build := s.block.build

/-- Where a step stops with a fault. -/
inductive Fault
  /-- `MemRead` at an address `a >= len`, which is no address of the buffer space (R10, R40). Raised by `Txn.memRead`;
  every meaning reads only after the fit check (R86), so no step raises it. Safe: the model stops. -/
  | readOutsideBuffer (a : Nat)
deriving DecidableEq, Repr

/-- Where a step or a meaning gives no next state. -/
inductive Refusal
  /-- An arm of `exec` without a meaning. Raised by no arm of this model. Safe. -/
  | notModelled (mnemonic : String)
  /-- The working state is not one that a walk of a built block's table reaches: run from it, the descriptor or index
  `j` would fail the named check, and "an ill-formed table never reaches a DECODE" (R83). Raised by the descriptors'
  meanings and by the walk; no state that a run reaches raises it, since a state holds only a block that was built.
  Safe: the model stops. -/
  | outsideWalk (v : Version) (check : WfCheck) (j : Nat)
  /-- A descriptor run while no DECODE is in progress: the working state it needs does not exist (R24, R31). Raised by
  the descriptors' meanings when called so; `step` never calls them so. Safe. -/
  | noTransaction
  /-- A request operation run while a DECODE is in progress: an instance takes one request at a time (R165). Raised by
  DECODE and TABLE_READ when called so; `step` never calls them so. Safe. -/
  | transactionInProgress
  /-- A request operation run with no request at the port. Raised by DECODE and TABLE_READ when called so; `step` never
  calls them so. Safe. -/
  | noRequest
deriving DecidableEq, Repr

/-- The state after reset (R31, R160): the block is built (R163), the ROM holds its build-time contents, no transaction is in progress, and no
other state exists to initialise; the port of a block just built holds no request and no response (log entry 3). -/
def State.reset : State :=
  { block := Config.block, txn := none, requests := [], responses := [] }

end Sys2Proof.Machine
end

