-- ==== Sys2Proof/Machine/Flags.lean ====
section
/-! DEFINITION. The block has no flags and no descriptor writes one (R28). Its only status output is the response's
`status`, with the fields that are valid beside it (R23, R68, R140): they stand here. -/

namespace Sys2Proof.Machine

/-- R140: the status names. -/
inductive Status
  | ok
  | truncatedInput
  | badVersion
  | badRequest
deriving DecidableEq, Repr

/-- R68: the 2-bit status codes. -/
def Status.code : Status → BitVec 2
  | .ok => 0#2
  | .truncatedInput => 1#2
  | .badVersion => 2#2
  | .badRequest => 3#2

/-- R140: every status but OK is fatal. -/
def Status.fatal : Status → Bool
  | .ok => false
  | .truncatedInput => true
  | .badVersion => true
  | .badRequest => true

/-- R23 `status`, valid in every response. -/
def Response.status : Response → Status
  | .okDecode _ _ => .ok
  | .okTableRead _ => .ok
  | .truncatedInput _ _ => .truncatedInput
  | .badVersion => .badVersion
  | .badRequest => .badRequest

/-- R23 `rec`: valid for a DECODE with status OK, absent otherwise. -/
def Response.recordField : Response → Option (List Value)
  | .okDecode vs _ => some vs
  | .okTableRead _ => none
  | .truncatedInput _ _ => none
  | .badVersion => none
  | .badRequest => none

/-- R23 `nfields`: valid for a DECODE with status OK, absent otherwise. -/
def Response.nfieldsField : Response → Option Nat
  | .okDecode _ n => some n
  | .okTableRead _ => none
  | .truncatedInput _ _ => none
  | .badVersion => none
  | .badRequest => none

/-- R23 `last_field`: valid for TruncatedInput, absent otherwise; its value is itself an ordinal or NONE. -/
def Response.lastFieldField : Response → Option (Option Nat)
  | .okDecode _ _ => none
  | .okTableRead _ => none
  | .truncatedInput l _ => some l
  | .badVersion => none
  | .badRequest => none

/-- R23 `fail_entry`: valid for TruncatedInput, absent otherwise. -/
def Response.failEntryField : Response → Option Nat
  | .okDecode _ _ => none
  | .okTableRead _ => none
  | .truncatedInput _ e => some e
  | .badVersion => none
  | .badRequest => none

/-- R23 `word`: valid for a TABLE_READ with status OK, absent otherwise. -/
def Response.wordField : Response → Option Word
  | .okDecode _ _ => none
  | .okTableRead w => some w
  | .truncatedInput _ _ => none
  | .badVersion => none
  | .badRequest => none

/-- R86, R141: `last_field` after `k` values: the ordinal `k - 1`, or NONE when no value was emitted. -/
def lastFieldOf (k : Nat) : Option Nat := if k = 0 then none else some (k - 1)

end Sys2Proof.Machine
end

