-- ==== Sys2Proof/Machine/Operands.lean ====
section
/-! DEFINITION. The operand forms of the descriptors: where the cursor points (R8, R26), how a byte of the buffer is
read (R10, R53), and the values STR, U8, U16LE, U16BE and BITS make of it (R42, R43, R45). -/

namespace Sys2Proof.Machine

/-- R26: the current byte address, `c div 8`; it is used directly, with no translation (R52). -/
def byteAddr (c : Nat) : Nat := c / 8

/-- R8: the MSB-first position in that byte, `p = c mod 8`. -/
def bitPos (c : Nat) : Nat := c % 8

/-- R42 U16LE: `value = {b1, b0}`. -/
def valueLE (b0 b1 : Byte) : Nat := b0.toNat + 256 * b1.toNat

/-- R42 U16BE: `value = {b0, b1}`. -/
def valueBE (b0 b1 : Byte) : Nat := 256 * b0.toNat + b1.toNat

/-- R45, R120: the `n` bits at MSB-first position `p` of a byte, `b[7-p : 8-p-n]`. -/
def bitField (b : Byte) (p n : Nat) : Nat := slice b.toNat (7 - p) (8 - p - n)

/-- R8: stream bit `c` of a buffer, bit `7 - (c mod 8)` of byte `c div 8`. -/
def streamBit (buf : Buffer) (c : Nat) : Bool := (Memory.read buf (c / 8)).getLsbD (7 - c % 8)

/-- The `n` stream bits from `c` on as one number, the first of them the most significant (R8, R45). -/
def streamBits (buf : Buffer) (c : Nat) : Nat → Nat
  | 0 => 0
  | n + 1 => (streamBit buf c).toNat * 2 ^ n + streamBits buf (c + 1) n

/-- R10 `MemRead(a, 1)`: the byte at address `a` of the request's snapshot, which has the addresses `0 .. len - 1`
(R40); any other address does not exist. -/
def Txn.memRead (t : Txn) (a : Nat) : Except Fault Byte :=
  if a < t.len then .ok (Memory.read t.buf a) else .error (.readOutsideBuffer a)

/-- R43: `n` bytes from address `a` on, in ascending address order. -/
def Txn.memReadList (t : Txn) (a : Nat) : Nat → Except Fault (List Byte)
  | 0 => .ok []
  | n + 1 =>
    match t.memRead a with
    | .error f => .error f
    | .ok b =>
      match Txn.memReadList t (a + 1) n with
      | .error f => .error f
      | .ok bs => .ok (b :: bs)

/-- R101: the value of STR n, the bytes as stored. -/
def Txn.strValue (n : Nat) (t : Txn) : Except Fault Value :=
  match t.memReadList (byteAddr t.c) n with
  | .error f => .error f
  | .ok bs => .ok (.str bs)

/-- R102: the value of U8, the byte itself, unsigned. -/
def Txn.u8Value (t : Txn) : Except Fault Value :=
  match t.memRead (byteAddr t.c) with
  | .error f => .error f
  | .ok b => .ok (.uns 8 b.toNat)

/-- R103, R104: the two bytes at the cursor, made into a 16-bit value by `order`. -/
def Txn.u16Value (order : Byte → Byte → Nat) (t : Txn) : Except Fault Value :=
  match t.memRead (byteAddr t.c) with
  | .error f => .error f
  | .ok b0 =>
    match t.memRead (byteAddr t.c + 1) with
    | .error f => .error f
    | .ok b1 => .ok (.uns 16 (order b0 b1))

/-- R120: the value of BITS n, zero-extended and tagged with its width. -/
def Txn.bitsValue (n : Nat) (t : Txn) : Except Fault Value :=
  match t.memRead (byteAddr t.c) with
  | .error f => .error f
  | .ok b => .ok (.uns n (bitField b (bitPos t.c) n))

end Sys2Proof.Machine
end

