-- ==== Sys2Proof/Machine/Ops.lean ====
section
/-! DEFINITION. The shared operations: taking a request, ending one (which is what raising an error is here), the walk's
fit check, emit and advance, one descriptor step, the table fetch, and reset. -/

namespace Sys2Proof.Machine

/-- The three outcomes of a step of this machine. -/
abbrev Result := Host.Outcome State Fault Refusal

/-- End the request with a response: `return OK` and `raise E` of R10. For an error this is all there is to its entry:
no state is saved, no mode changes, no vector is taken, and the record under construction is discarded (R143, R150).
The working state ends with the transaction (R31), and no register keeps the response (R29): it goes to the host. -/
def State.finish (s : State) (r : Response) : State :=
  { s with txn := none, responses := s.responses ++ [r] }

/-- The host sends a request (R97): it waits at the port behind those sent before (R165). -/
def State.submit (s : State) (r : Request) : State := { s with requests := s.requests ++ [r] }

/-- Take the oldest request off the port (R165). -/
def State.takeRequest (s : State) : State := { s with requests := s.requests.tail }

/-- Answer the oldest request with `r` at once. -/
def State.answer (s : State) (r : Response) : State := s.takeRequest.finish r

/-- The working state at DECODE start (R24). -/
def Txn.start (v : Version) (r : Request) : Txn :=
  { ver := v, buf := r.buf, len := r.len, i := 0, c := 0, k := 0, record := [] }

/-- R10, R27 `emit(val)`: `rec[k] <- val; k <- k + 1`. -/
def Txn.emit (t : Txn) (v : Value) : Txn := { t with record := t.record ++ [v], k := t.k + 1 }

/-- The end of every descriptor but END (R81): `c <- c + W(e); i <- i + 1`. -/
def Txn.advance (t : Txn) (w : Nat) : Txn := { t with c := t.c + w, i := t.i + 1 }

/-- R86: whether a descriptor of width `w` fits, `c + W(e) <= 8*len`. -/
def Txn.fits (t : Txn) (w : Nat) : Bool := decide (t.c + w ≤ 8 * t.len)

/-- R86, R141: the report of a descriptor that does not fit. -/
def Txn.truncation (t : Txn) : Response := .truncatedInput (lastFieldOf t.k) t.i

/-- Replace the working state. -/
def State.withTxn (s : State) (t : Txn) : State := { s with txn := some t }

/-- What one descriptor at cursor `t.c` does, END apart (R81): the fit check first (R86), then `exec`, which gives the
working state with any value emitted (reads before the emit, R106), then the advance of cursor and entry index. A place
or term that the table checks rule out stands in no built table; it is refused by the check's name (R83, log entry 7), an
emit without a slot by WF7. -/
def runDescriptor (e : Instr) (exec : Txn → Except Fault Txn) (s : State) : Result :=
  match s.txn with
  | none => .refused .noTransaction
  | some t =>
    match e.defect t.c with
    | some k => .refused (.outsideWalk t.ver k t.i)
    | none =>
      if e.isOutput && decide (s.build.maxFields ≤ t.k) then .refused (.outsideWalk t.ver .wf7 t.i)
      else if t.fits e.width then
        match exec t with
        | .error f => .fault f
        | .ok t' => .next (s.withTxn (t'.advance e.width))
      else .next (s.finish t.truncation)

/-- `Exec` of an output descriptor: the value, then its emit. -/
def emitting (value : Txn → Except Fault Value) (t : Txn) : Except Fault Txn :=
  match value t with
  | .error f => .error f
  | .ok v => .ok (t.emit v)

/-- `Exec` of a gap descriptor (R105, R121): no read, no emit. -/
def silent (t : Txn) : Except Fault Txn := .ok t

/-- Run a request operation on the oldest request of an idle block. The block has passed every check of R163 by then: a
state holds no other. -/
def onRequest (f : Request → Result) (s : State) : Result :=
  match s.txn with
  | some _ => .refused .transactionInProgress
  | none =>
    match s.requests with
    | [] => .refused .noRequest
    | r :: _ => f r

/-- The version check of R80, R145, made after every check for BadRequest. -/
def withVersion (s : State) (r : Request) (f : Version → Result) : Result :=
  match Version.ofSelector r.ver with
  | none => .next (s.answer .badVersion)
  | some v => f v

/-- The descriptor fetch of R84: the whole word `T[i]` (R48). -/
def State.fetchWord (s : State) (t : Txn) : Word := Memory.read (s.build.table t.ver) t.i

/-- Reset (R160, R162): no transaction is in progress and the ROM is untouched. A request that was in progress gets no
response. What the host has queued at the port, and the responses it already has, are the host's. -/
def State.applyReset (s : State) : State := { s with txn := none }

end Sys2Proof.Machine
end

