-- ==== Sys2Proof/Machine/BitFields.lean ====
section
/-! DEFINITION. The sub-byte descriptors (R120, R121). -/

namespace Sys2Proof.Machine

/-- BITS n (R120): emit the `n` bits at the cursor, most significant first, zero-extended. -/
def execBits (n : Nat) (s : State) : Result := runDescriptor (.bits n) (emitting (Txn.bitsValue n)) s

/-- PAD n (R121): pass `n` padding bits inside a byte, which are not read. -/
def execPad (n : Nat) (s : State) : Result := runDescriptor (.pad n) silent s

end Sys2Proof.Machine
end

