-- ==== Sys2Proof/Machine/ByteFields.lean ====
section
/-! DEFINITION. The byte-aligned descriptors (R101 to R105). -/

namespace Sys2Proof.Machine

/-- STR n (R101): emit the `n` bytes at the cursor as a string. -/
def execStr (n : Nat) (s : State) : Result := runDescriptor (.str n) (emitting (Txn.strValue n)) s

/-- U8 (R102): emit the byte at the cursor. -/
def execU8 (s : State) : Result := runDescriptor .u8 (emitting Txn.u8Value) s

/-- U16LE (R103): emit the two bytes at the cursor, the first the low byte. -/
def execU16le (s : State) : Result := runDescriptor .u16le (emitting (Txn.u16Value valueLE)) s

/-- U16BE (R104): emit the two bytes at the cursor, the first the high byte. -/
def execU16be (s : State) : Result := runDescriptor .u16be (emitting (Txn.u16Value valueBE)) s

/-- SKIP n (R105): pass `n` whole bytes, which must be present but are not read. -/
def execSkip (n : Nat) (s : State) : Result := runDescriptor (.skip n) silent s

end Sys2Proof.Machine
end

