-- ==== Sys2Proof/Machine/Requests.lean ====
section
/-! DEFINITION. The two request operations (R80, R81, R92) and the end of the walk (R88). -/

namespace Sys2Proof.Machine

/-- END (R88): the DECODE answers OK with the record and `nfields = k`. It has width 0, so there is no fit check, and it
does not ask that `len = R(v)`. -/
def execEnd (s : State) : Result :=
  match s.txn with
  | none => .refused .noTransaction
  | some t =>
    match Instr.defect .endTable t.c with
    | some k => .refused (.outsideWalk t.ver k t.i)
    | none => .next (s.finish (.okDecode t.record t.k))

/-- DECODE (R80, R81): the request's shape, then its version, then the walk starts on the version's table with the
working state of R24. Each later step runs one descriptor, until END or a truncation answers (log entry 1). -/
def execDecode (s : State) : Result :=
  onRequest (fun r =>
    if s.build.maxLen < r.len then .next (s.answer .badRequest)
    else withVersion s r (fun v => .next (s.takeRequest.withTxn (Txn.start v r)))) s

/-- TABLE_READ (R80, R92): the word of the entry, reading no buffer byte and ignoring `len`. -/
def execTableRead (s : State) : Result :=
  onRequest (fun r =>
    if s.build.maxEntries ≤ r.idx then .next (s.answer .badRequest)
    else withVersion s r
      (fun v => .next (s.answer (.okTableRead (Memory.read (s.build.table v) r.idx))))) s

end Sys2Proof.Machine
end

