-- ==== Sys2Proof/Machine/Dispatch.lean ====
section
/-! DEFINITION. Dispatch (R80, R100): one arm per instruction. -/

namespace Sys2Proof.Machine

def exec (i : Instr) (s : State) : Host.Outcome State Fault Refusal :=
  match i with
  | .endTable => Sys2Proof.Machine.execEnd s
  | .str n => Sys2Proof.Machine.execStr n s
  | .u8 => Sys2Proof.Machine.execU8 s
  | .u16le => Sys2Proof.Machine.execU16le s
  | .u16be => Sys2Proof.Machine.execU16be s
  | .bits n => Sys2Proof.Machine.execBits n s
  | .skip n => Sys2Proof.Machine.execSkip n s
  | .pad n => Sys2Proof.Machine.execPad n s
  | .decode => Sys2Proof.Machine.execDecode s
  | .tableRead => Sys2Proof.Machine.execTableRead s

end Sys2Proof.Machine
end

