-- ==== Sys2Proof/Machine/Fetch.lean ====
section
/-! DEFINITION. What one step fetches and runs: the next descriptor of the DECODE in progress (R81), else the oldest
request (R80). -/

namespace Sys2Proof.Machine

/-- One turn of the walk's loop (R81): fetch `T[i]` (R84) and run it. An index without a slot and a word that decodes to
ILLEGAL are what WF2 and WF1 keep out of the walk of every table a block is built with (log entry 7). -/
def stepWalk (s : State) (t : Txn) : Result :=
  if s.build.maxEntries ≤ t.i then .refused (.outsideWalk t.ver .wf2 t.i)
  else
    match decodeDesc (s.fetchWord t) with
    | .error _ => .refused (.outsideWalk t.ver .wf1 t.i)
    | .ok e => exec e s

/-- Take the oldest request (R80): a reserved `req_op` answers BadRequest before any other check (R146). -/
def stepRequest (s : State) (r : Request) : Result :=
  match decodeReq r.reqOp with
  | .error _ => .next (s.answer .badRequest)
  | .ok e => exec e s

/-- One step. With no DECODE in progress and no request the block does nothing (R149: it never starts an action by
itself). -/
def runStep (s : State) : Result :=
  match s.txn with
  | some t => stepWalk s t
  | none =>
    match s.requests with
    | [] => .next s
    | r :: _ => stepRequest s r

end Sys2Proof.Machine
end

