-- ==== Sys2Proof/Machine/Assembler.lean ====
section
/-! DEFINITION. How a layout table is written: the assembly syntax (R71), the pseudo-descriptors (R72) and the
transcription of a source field listing (R73). The block does not run any of it: it makes the table a block is built
with. -/

namespace Sys2Proof

/-- One item of a layout in assembly: a real descriptor, or a pseudo-descriptor (R72). `skip N` may be longer than one
SKIP; `skipbits N` needs `N >= 1`. -/
inductive AsmItem
  | desc (e : Instr)
  | align
  | skip (n : Nat)
  | skipbits (n : Nat)
deriving DecidableEq, Repr

/-- Why an assembler refuses a line (R71). -/
inductive AsmError
  /-- A mnemonic it does not know; a bare `u16` is one. -/
  | unknownMnemonic
  /-- A count that is missing, one too many, or out of its range. -/
  | badOperand
  /-- A number that is neither decimal nor hex with `0x`. -/
  | badNumber
  /-- A label that is not one name, or one that labels nothing. -/
  | badLabel
deriving DecidableEq, Repr

/-- R72 `skip N`: `floor(N/255)` copies of `skip 255`, then the rest if there is one. -/
def expandSkip (n : Nat) : List Instr :=
  List.replicate (n / 255) (.skip 255) ++ (if n % 255 ≠ 0 then [.skip (n % 255)] else [])

/-- R72 `align` at cursor `c`. -/
def expandAlign (c : Nat) : List Instr :=
  if c % 8 = 0 then [] else [.pad (8 - c % 8)]

/-- R72 `skipbits N` at cursor `c`: the bits left in the byte, whole bytes, then the bits left over. -/
def expandSkipbits (c n : Nat) : List Instr :=
  let p := c % 8
  let h := if p ≠ 0 then min n (8 - p) else 0
  (if h ≠ 0 then [.pad h] else [])
    ++ expandSkip ((n - h) / 8)
    ++ (if (n - h) % 8 > 0 then [.pad ((n - h) % 8)] else [])

/-- The real descriptors an item stands for at cursor `c` (R72). -/
def AsmItem.expand (c : Nat) : AsmItem → List Instr
  | .desc e => [e]
  | .align => expandAlign c
  | .skip n => expandSkip n
  | .skipbits n => expandSkipbits c n

/-- R72: the assembler tracks the cursor while it assembles. -/
def assembleFrom (c : Nat) : List AsmItem → List Instr
  | [] => []
  | x :: xs => x.expand c ++ assembleFrom (cursorAfter c (x.expand c)) xs

/-- The words of a layout (R21). -/
def assemble (xs : List AsmItem) : List Word := (assembleFrom 0 xs).filterMap encodeDesc

/-- R71: a count in its range, or a refusal. -/
def rangeChecked (lo hi : Nat) (item : Nat → AsmItem) : List Nat → Except AsmError AsmItem
  | [n] => if lo ≤ n ∧ n ≤ hi then .ok (item n) else .error .badOperand
  | _ => .error .badOperand

/-- R71: a mnemonic without a count. -/
def countless (item : AsmItem) : List Nat → Except AsmError AsmItem
  | [] => .ok item
  | _ :: _ => .error .badOperand

/-- R71, R72: the item of a mnemonic and its operands. -/
def asmItem (mnemonic : List Char) (ns : List Nat) : Except AsmError AsmItem :=
  if mnemonic = "end".toList then countless (.desc .endTable) ns
  else if mnemonic = "str".toList then rangeChecked 1 255 (fun n => .desc (.str n)) ns
  else if mnemonic = "u8".toList then countless (.desc .u8) ns
  else if mnemonic = "u16le".toList then countless (.desc .u16le) ns
  else if mnemonic = "u16be".toList then countless (.desc .u16be) ns
  else if mnemonic = "bits".toList then rangeChecked 1 8 (fun n => .desc (.bits n)) ns
  else if mnemonic = "pad".toList then rangeChecked 1 7 (fun n => .desc (.pad n)) ns
  else if mnemonic = "align".toList then countless .align ns
  else
    match ns with
    | [n] =>
      if mnemonic = "skip".toList then (if 1 ≤ n then .ok (.skip n) else .error .badOperand)
      else if mnemonic = "skipbits".toList then (if 1 ≤ n then .ok (.skipbits n) else .error .badOperand)
      else .error .unknownMnemonic
    | _ =>
      if mnemonic = "skip".toList ∨ mnemonic = "skipbits".toList then .error .badOperand
      else .error .unknownMnemonic

/-- The value of a digit in base 16. -/
def digitValue (ch : Char) : Option Nat :=
  if '0'.toNat ≤ ch.toNat ∧ ch.toNat ≤ '9'.toNat then some (ch.toNat - '0'.toNat)
  else if 'a'.toNat ≤ ch.toNat ∧ ch.toNat ≤ 'f'.toNat then some (ch.toNat - 'a'.toNat + 10)
  else if 'A'.toNat ≤ ch.toNat ∧ ch.toNat ≤ 'F'.toNat then some (ch.toNat - 'A'.toNat + 10)
  else none

/-- The value of a run of digits in base `b`, after the value `acc` of the digits before them. -/
def digitsValue (b acc : Nat) : List Char → Option Nat
  | [] => some acc
  | ch :: cs =>
    match digitValue ch with
    | none => none
    | some d => if d < b then digitsValue b (b * acc + d) cs else none

/-- R71: numbers are decimal, or hex with `0x`. -/
def parseNumber : List Char → Except AsmError Nat
  | '0' :: 'x' :: c :: cs => ((digitsValue 16 0 (c :: cs)).map Except.ok).getD (.error .badNumber)
  | c :: cs => ((digitsValue 10 0 (c :: cs)).map Except.ok).getD (.error .badNumber)
  | [] => .error .badNumber

/-- The numbers of a run of tokens. -/
def parseNumbers : List (List Char) → Except AsmError (List Nat)
  | [] => .ok []
  | t :: ts =>
    match parseNumber t with
    | .error e => .error e
    | .ok n =>
      match parseNumbers ts with
      | .error e => .error e
      | .ok ns => .ok (n :: ns)

/-- The tokens of a line: maximal runs of characters other than blanks, `cur` being the one begun. -/
def tokensFrom (cur : List Char) : List Char → List (List Char)
  | [] => if cur = [] then [] else [cur]
  | ch :: cs =>
    if ch = ' ' ∨ ch = '\t' then (if cur = [] then tokensFrom [] cs else cur :: tokensFrom [] cs)
    else tokensFrom (cur ++ [ch]) cs

/-- R71: one line of a layout: an optional label `name:`, which is metadata and is not encoded, then a descriptor, then
an optional comment after `;`. A line with neither label nor descriptor gives nothing. -/
def parseLine (line : List Char) : Except AsmError (Option AsmItem) :=
  let code := line.takeWhile (fun ch => ch != ';')
  let label := tokensFrom [] (code.takeWhile (fun ch => ch != ':'))
  let rest := (code.dropWhile (fun ch => ch != ':')).drop 1
  let labelled := code.any (fun ch => ch == ':')
  if labelled ∧ (label.length ≠ 1 ∨ tokensFrom [] rest = []) then .error .badLabel
  else
    match tokensFrom [] (if labelled then rest else code) with
    | [] => .ok none
    | mnemonic :: operands =>
      match parseNumbers operands with
      | .error e => .error e
      | .ok ns =>
        match asmItem mnemonic ns with
        | .error e => .error e
        | .ok x => .ok (some x)

/-- The items of a layout written one descriptor per line (R71). -/
def parseLines : List (List Char) → Except AsmError (List AsmItem)
  | [] => .ok []
  | l :: ls =>
    match parseLine l with
    | .error e => .error e
    | .ok x =>
      match parseLines ls with
      | .error e => .error e
      | .ok xs => .ok (x.toList ++ xs)

/-- What a field of a listing is (R73): a string of `m` bytes, a byte field, or another field, with the byte order that
the listing declares for a 16-bit one. -/
inductive ListingKind
  | string (m : Nat)
  | byteField
  | other (bigEndian : Option Bool)
deriving DecidableEq, Repr

/-- A field of a listing (R73): its byte offset `B`, bit width `w` and MSB-first bit position `p`. The name is
metadata. -/
structure ListingField where
  name : String
  offset : Nat
  width : Nat
  pos : Nat
  kind : ListingKind
deriving DecidableEq, Repr

/-- Why a listing is refused (R73, R71). -/
inductive ListingError
  /-- Two fields overlap. -/
  | overlap
  /-- A field with no bit, or a sub-byte field that crosses a byte boundary (R124). -/
  | crossesByte
  /-- A string whose length is not 1 to 255 bytes (R72). -/
  | badString
  /-- A 16-bit field with no declared byte order (R71). -/
  | noByteOrder
  /-- The declared total length ends before the last field does. -/
  | totalTooShort
deriving DecidableEq, Repr

/-- Where a listing counts bit positions from (R73, `93_implementation_defined.md` U7). -/
inductive BitOrigin
  | msb
  | lsb
deriving DecidableEq, Repr

/-- The width of a field in bits, `8*m` for a string of `m` bytes (log entry 19). -/
def ListingField.bits (f : ListingField) : Nat :=
  match f.kind with
  | .string m => 8 * m
  | .byteField => f.width
  | .other _ => f.width

/-- R73: a position counted from the least significant bit, as an MSB-first one: `p = 8 - w - p_lsb`. The formula has a
value only inside one byte, `w + p_lsb <= 8`. DESIGN CHOICE beyond that (log entry 20): a field of whole bytes with
`p_lsb = 0` starts at the top of its first byte, `p = 0`, and any other field has no position. -/
def posFromLsb (w pLsb : Nat) : Option Nat :=
  if w + pLsb ≤ 8 then some (8 - w - pLsb)
  else if w % 8 = 0 ∧ pLsb = 0 then some 0
  else none

/-- R73: a field as the MSB-first listing gives it, for a listing with the given origin. A field without an MSB-first
position crosses a byte boundary and is refused so (log entry 20). -/
def ListingField.msbFirst (origin : BitOrigin) (f : ListingField) : Except ListingError ListingField :=
  match origin with
  | .msb => .ok f
  | .lsb =>
    match posFromLsb f.bits f.pos with
    | some p => .ok { f with pos := p }
    | none => .error .crossesByte

/-- The fields of a listing with MSB-first positions. -/
def msbFirstFields (origin : BitOrigin) : List ListingField → Except ListingError (List ListingField)
  | [] => .ok []
  | f :: fs =>
    match f.msbFirst origin with
    | .error r => .error r
    | .ok g =>
      match msbFirstFields origin fs with
      | .error r => .error r
      | .ok gs => .ok (g :: gs)

/-- R73: where a field starts, `8*B + p`. -/
def ListingField.start (f : ListingField) : Nat := 8 * f.offset + f.pos

/-- R73: the order of the listing, `(B, p)` ascending. -/
def ListingField.before (f g : ListingField) : Bool :=
  decide (f.offset < g.offset) || (decide (f.offset = g.offset) && decide (f.pos ≤ g.pos))

/-- Put a field in its place among sorted ones, after those that equal it. -/
def insertField (f : ListingField) : List ListingField → List ListingField
  | [] => [f]
  | g :: gs => if f.before g then f :: g :: gs else g :: insertField f gs

/-- The fields sorted by `(B, p)` ascending. -/
def sortFields (fs : List ListingField) : List ListingField := fs.foldr insertField []

/-- R73: the descriptor of one field. -/
def ListingField.descriptor (f : ListingField) : Except ListingError Instr :=
  match f.kind with
  | .string m => if 1 ≤ m ∧ m ≤ 255 then .ok (.str m) else .error .badString
  | .byteField =>
    if f.width = 8 ∧ f.pos = 0 then .ok .u8
    else if 1 ≤ f.width ∧ f.pos + f.width ≤ 8 then .ok (.bits f.width)
    else .error .crossesByte
  | .other order =>
    if f.width = 16 ∧ f.pos = 0 then
      match order with
      | some true => .ok .u16be
      | some false => .ok .u16le
      | none => .error .noByteOrder
    else if 1 ≤ f.width ∧ f.pos + f.width ≤ 8 then .ok (.bits f.width)
    else .error .crossesByte

/-- `skipbits N`, nothing for `N = 0`. -/
def gapItems (n : Nat) : List AsmItem := if n = 0 then [] else [.skipbits n]

/-- R73: the items of the sorted fields from cursor `c` on, with the cursor after them. -/
def transcribeFrom (c : Nat) : List ListingField → Except ListingError (List AsmItem × Nat)
  | [] => .ok ([], c)
  | f :: fs =>
    if f.start < c then .error .overlap
    else
      match f.descriptor with
      | .error e => .error e
      | .ok e =>
        match transcribeFrom (f.start + e.width) fs with
        | .error r => .error r
        | .ok (xs, c') => .ok (gapItems (f.start - c) ++ [.desc e] ++ xs, c')

/-- R73: the fields of a listing whose positions are MSB-first, with its declared total length in bytes if it gives one,
as a layout. -/
def transcribeFields (fs : List ListingField) (total : Option Nat) : Except ListingError (List Instr) :=
  match transcribeFrom 0 (sortFields fs) with
  | .error r => .error r
  | .ok (xs, c) =>
    match total with
    | none => .ok (assembleFrom 0 (xs ++ [.align, .desc .endTable]))
    | some n =>
      if 8 * n < c then .error .totalTooShort
      else .ok (assembleFrom 0 (xs ++ gapItems (8 * n - c) ++ [.align, .desc .endTable]))

/-- R73: a field listing as a layout; the listing's own convention decides how its positions are read. -/
def transcribe (origin : BitOrigin) (fs : List ListingField) (total : Option Nat) : Except ListingError (List Instr) :=
  match msbFirstFields origin fs with
  | .error r => .error r
  | .ok gs => transcribeFields gs total

end Sys2Proof
end

