-- ==== Sys2Proof/Machine/Load.lean ====
section
/-! DEFINITION. How one instruction's bits come to stand where the next step fetches (log entry 6). -/

namespace Sys2Proof.Machine

/-- A layout around the one word `w`: the word, padded to a byte boundary (R72 `align`), then END. -/
def loadedLayout (w : Word) : List Word :=
  match decodeDesc w with
  | .ok e => w :: (expandAlign e.width).filterMap encodeDesc
  | .error _ => [w]

/-- A block with that layout as version A, and `skip 102; end` as version B, so that `R(B) = 102` (R163). A layout comes
into the ROM only when the block is built (R21, R163), so building is how a program is loaded. -/
def loadedBuild (w : Word) : Build :=
  { maxLen := 256, maxEntries := 4, maxFields := 1,
    tableA := Memory.ofList (loadedLayout w), tableB := Memory.ofList [0x6066#16] }

/-- A request with the kind `op`, for version A, with an empty buffer and entry index 0. -/
def loadedRequest (op : BitVec 2) : Request :=
  { reqOp := op, ver := 0#8, len := 0, buf := [], idx := 0 }

/-- A DECODE of version A at its first descriptor, over 256 zero bytes: room for the longest descriptor. -/
def loadedTxn : Txn :=
  { ver := .a, buf := [], len := 256, i := 0, c := 0, k := 0, record := [] }

/-- Build the block around `w` and put it in the state's place, with the walk or the requests given. A word that is no
descriptor stands in no table of a built block (R83 WF1), so there is nothing to place. -/
def State.withBlockOf (s : State) (w : Word) (t : Option Txn) (rs : List Request) : State :=
  match (loadedBuild w).construct with
  | .ok b => { s with block := b, txn := t, requests := rs }
  | .error _ => s

/-- An instruction of at most 8 bits is a request, which the next step takes from the port of an idle block; a longer one
is a descriptor, which the next step fetches from the table of the DECODE in progress. -/
def placeWord (s : State) (nbits w : Nat) : State :=
  if nbits ≤ 8 then s.withBlockOf 0x0000#16 none [loadedRequest (BitVec.ofNat 2 w)]
  else s.withBlockOf (BitVec.ofNat 16 w) (some loadedTxn) s.requests

end Sys2Proof.Machine
end

