-- ==== Sys2Proof/Machine/Step.lean ====
section
/-! DEFINITION. The step of the machine. What a step fetches is in `Machine/Fetch.lean`, how a word is placed there in
`Machine/Load.lean`. -/

namespace Sys2Proof.Machine

/-- One step of the block: one descriptor of the DECODE in progress, else one request. -/
def step (s : State) : Host.Outcome State Fault Refusal := runStep s

/-- `s` with the instruction `w` of `nbits` bits placed so that the next step runs it. -/
def State.withFetchWord (s : State) (nbits w : Nat) : State := placeWord s nbits w

end Sys2Proof.Machine
end

