-- ==== Sys2Proof/Machine/Transaction.lean ====
section
/-! DEFINITION. A whole transaction as one function of the request and the ROM (R11, R80, R81, R92, R94): the block as
the host sees it, "one request is one atomic step that gives one response" (decision D1). It is written beside the
step, over the list of descriptors; that the steps give this response and change nothing else is an obligation. -/

namespace Sys2Proof.Machine

/-- The value an output descriptor at cursor `c` gives, read straight from the buffer (R101 to R104, R120). -/
def fieldValue (e : Instr) (buf : Buffer) (c : Nat) : Option Value :=
  match e with
  | .endTable => none
  | .str n => some (.str (Memory.readList buf (c / 8) n))
  | .u8 => some (.uns 8 (Memory.read buf (c / 8)).toNat)
  | .u16le => some (.uns 16 (valueLE (Memory.read buf (c / 8)) (Memory.read buf (c / 8 + 1))))
  | .u16be => some (.uns 16 (valueBE (Memory.read buf (c / 8)) (Memory.read buf (c / 8 + 1))))
  | .bits n => some (.uns n (bitField (Memory.read buf (c / 8)) (c % 8) n))
  | .skip _ => none
  | .pad _ => none
  | .decode => none
  | .tableRead => none

/-- The values the descriptors `es` emit from cursor `c` on, in table order (R27). -/
def recordFrom (buf : Buffer) : Nat → List Instr → List Value
  | _, [] => []
  | c, e :: es => (fieldValue e buf c).toList ++ recordFrom buf (c + e.width) es

/-- The first descriptor that does not fit in `len` bytes, as its entry index and the number of values before it
(R86); `none` when all fit. -/
def firstMisfit (len : Nat) : Nat → Nat → Nat → List Instr → Option (Nat × Nat)
  | _, _, _, [] => none
  | i, c, k, e :: es =>
    if 8 * len < c + e.width then some (i, k)
    else firstMisfit len (i + 1) (c + e.width) (if e.isOutput then k + 1 else k) es

/-- R81 `Decode`: the walk of the descriptors before END. -/
def decodeAll (es : List Instr) (buf : Buffer) (len : Nat) : Response :=
  match firstMisfit len 0 0 0 es with
  | some (i, k) => .truncatedInput (lastFieldOf k) i
  | none => .okDecode (recordFrom buf 0 es) (outputCount es)

/-- R80 `Dispatch`: the first check that fails decides the response. -/
def transact (b : Build) (r : Request) : Response :=
  if r.reqOp ≠ 0b00#2 ∧ r.reqOp ≠ 0b01#2 then .badRequest
  else if r.reqOp = 0b00#2 ∧ b.maxLen < r.len then .badRequest
  else if r.reqOp = 0b01#2 ∧ b.maxEntries ≤ r.idx then .badRequest
  else
    match Version.ofSelector r.ver with
    | none => .badVersion
    | some v =>
      if r.reqOp = 0b00#2 then decodeAll (b.program v) r.buf r.len
      else .okTableRead (Memory.read (b.table v) r.idx)

end Sys2Proof.Machine
end

