-- ==== Sys2Proof/Safety.lean ====
section
/-! DEFINITION. The terms claims are stated in: the illegal words by their fields, and what a good state is. -/

namespace Sys2Proof

/-- R69, with R60 to R63: the words that are no descriptor, by their fields: `op` (15:12) reserved, `rsv` (11:8) not
zero, or `n` (7:0) outside the range of its kind. -/
def illegalWord (w : Word) : Prop :=
  let op := (w.extractLsb 15 12).toNat
  let rsv := (w.extractLsb 11 8).toNat
  let n := (w.extractLsb 7 0).toNat
  8 ≤ op ∨ rsv ≠ 0 ∨
    ((op = 0 ∨ op = 2 ∨ op = 3 ∨ op = 4) ∧ n ≠ 0) ∨
    ((op = 1 ∨ op = 6) ∧ n = 0) ∨
    (op = 5 ∧ (n = 0 ∨ 8 < n)) ∨
    (op = 7 ∧ (n = 0 ∨ 7 < n))

end Sys2Proof

namespace Sys2Proof.Machine

/-- R9, R27: a value has the width its tag says. -/
def Value.wf : Value → Bool
  | .str _ => true
  | .uns w x => decide (x < 2 ^ w)

/-- R22: the fields of a request stay in their widths, and the buffer is a memory of at most `MAX_LEN` bytes. -/
abbrev Request.encodable (b : Build) (r : Request) : Prop :=
  r.len < 2 ^ b.lenW ∧ r.idx < 2 ^ b.idxW ∧ Memory.wf r.buf = true ∧ ∀ cell ∈ r.buf, cell.1 < b.maxLen

/-- R23: the fields of a response stay in their widths, and a record holds exactly `nfields` values. -/
def Response.wf (b : Build) : Response → Bool
  | .okDecode vs n => decide (n = vs.length) && decide (n ≤ b.maxFields) && vs.all Value.wf
  | .okTableRead _ => true
  | .truncatedInput l e =>
    decide (e < b.maxEntries) && (match l with | none => true | some j => decide (j < b.maxFields))
  | .badVersion => true
  | .badRequest => true

/-- The working state after the first `i` descriptors of the table (R24 to R27): the cursor is the sum of their widths
and lies inside the input, and the record holds their values. -/
abbrev Txn.good (b : Build) (t : Txn) : Prop :=
  t.len ≤ b.maxLen ∧ Memory.wf t.buf = true ∧
  t.i ≤ (b.program t.ver).length ∧
  t.c = cursorAfter 0 ((b.program t.ver).take t.i) ∧ t.c ≤ 8 * t.len ∧
  t.record = recordFrom t.buf 0 ((b.program t.ver).take t.i) ∧
  t.k = outputCount ((b.program t.ver).take t.i)

/-- The invariant of the machine: the requests are requests, the working state is that of a walk, and the responses are
responses. That the block could be built (R163) is in the state's type. -/
abbrev State.Inv (s : State) : Prop :=
  (∀ r ∈ s.requests, r.encodable s.build) ∧
  (∀ t ∈ s.txn, t.good s.build) ∧ (∀ r ∈ s.responses, r.wf s.build = true)

end Sys2Proof.Machine
end

