-- ==== Sys2Proof/Certificates/Slice0/Obligations.lean ====
section
/-! DEFINITION. The statements about the block, for the provers. Every statement about a step holds for every choice of
the OPEN parameters, because the state carries its build. -/

open Sys2Proof Sys2Proof.Machine

/-! ### Encoding -/

/-- R71, `95_test_vectors.md` §2.11: words written out from the encoding tables decode to what they stand for. -/
def Obligations.SpecWordsDecode : Prop :=
  decodeDesc 0x0000#16 = .ok .endTable ∧ decodeDesc 0x1004#16 = .ok (.str 4) ∧
  decodeDesc 0x10FF#16 = .ok (.str 255) ∧ decodeDesc 0x2000#16 = .ok .u8 ∧
  decodeDesc 0x3000#16 = .ok .u16le ∧ decodeDesc 0x4000#16 = .ok .u16be ∧
  decodeDesc 0x5001#16 = .ok (.bits 1) ∧ decodeDesc 0x5008#16 = .ok (.bits 8) ∧
  decodeDesc 0x60FF#16 = .ok (.skip 255) ∧ decodeDesc 0x7007#16 = .ok (.pad 7) ∧
  decodeReq 0b00#2 = .ok .decode ∧ decodeReq 0b01#2 = .ok .tableRead

/-- R60 to R63, R67, R71: no bit of an encoding is dropped. -/
def Obligations.DecodeEncodeRoundTrip : Prop :=
  ∀ i : Instr, i.wf = true → decode (encode i) = .ok i

/-- R84 and `30_encoding.md` §5: each word has one meaning: what it decodes to is well-formed and encodes to it. -/
def Obligations.EncodeDecodeRoundTrip : Prop :=
  ∀ (x : Encoded) (i : Instr), decode x = .ok i → i.wf = true ∧ encode i = x

/-- R69: a word is illegal exactly when its `op` is reserved, its `rsv` is not zero, or its `n` is outside the range of
its kind, the three fields being the word's bits 15:12, 11:8 and 7:0 (R60): `illegalWord` of `Safety.lean`. -/
def Obligations.IllegalWordsExactly : Prop :=
  ∀ w : Word,
    (∃ r, decodeDesc w = .error r) ↔ illegalWord w

/-! ### A step runs the decoded instruction -/

/-- R84, R81: in the middle of a DECODE, a step runs the descriptor that the word `T[i]` decodes to. -/
def Obligations.StepRunsFetchedDescriptor : Prop :=
  ∀ (s : State) (t : Txn) (e : Instr), s.txn = some t → t.i < s.build.maxEntries →
    decodeDesc (Memory.read (s.build.table t.ver) t.i) = .ok e → step s = exec e s

/-- R80, R67: an idle block takes the oldest request, and a step runs the operation its `req_op` names. -/
def Obligations.StepRunsOldestRequest : Prop :=
  ∀ (s : State) (r : Request) (rs : List Request) (e : Instr), s.txn = none → s.requests = r :: rs →
    decodeReq r.reqOp = .ok e → step s = exec e s

/-- Log entry 12 (the model's own choice): with no DECODE in progress and no request waiting, a step answers the same
state. R149, "the block never starts an action by itself", gives an idle block no step of its own. -/
def Obligations.IdleBlockStaysIdle : Prop :=
  ∀ s : State, s.txn = none → s.requests = [] → step s = .next s

/-- Log entry 6 (the model's own convention): a word that decodes, placed for the next step, is the word the next step
runs. -/
def Obligations.PlacedWordRunsNext : Prop :=
  ∀ (s : State) (w : Nat) (e : Instr),
    (decodeTableWord 16 w = some e → step (s.withFetchWord 16 w) = exec e (s.withFetchWord 16 w)) ∧
    (decodeTableWord 8 w = some e → step (s.withFetchWord 8 w) = exec e (s.withFetchWord 8 w))

/-! ### What each descriptor does -/

/-- R101: STR n. Its word; that it emits the `n` bytes at the cursor as stored, moving the cursor by `8*n` and the
entry index by 1 and changing nothing else; and that it truncates before reading anything when `a + n > len`. -/
def Obligations.StrEmitsItsBytes : Prop :=
  ∀ (s : State) (t : Txn) (n : Nat), 1 ≤ n → n ≤ 255 → s.txn = some t → t.c % 8 = 0 →
    t.k < s.build.maxFields →
    decodeDesc (0x1000#16 ||| BitVec.ofNat 16 n) = .ok (.str n) ∧
    (t.c / 8 + n ≤ t.len →
      exec (.str n) s = .next { s with
        txn := some
          { t with
            i := t.i + 1, c := t.c + 8 * n, k := t.k + 1,
            record := t.record ++ [.str ((List.range n).map (fun j => Memory.read t.buf (t.c / 8 + j)))] } }) ∧
    (t.len < t.c / 8 + n →
      exec (.str n) s = .next { s with
        txn := none,
        responses := s.responses ++ [.truncatedInput (if t.k = 0 then none else some (t.k - 1)) t.i] })

/-- R102: U8, the byte at the cursor, unsigned. -/
def Obligations.U8EmitsItsByte : Prop :=
  ∀ (s : State) (t : Txn), s.txn = some t → t.c % 8 = 0 → t.k < s.build.maxFields →
    decodeDesc 0x2000#16 = .ok .u8 ∧
    (t.c / 8 + 1 ≤ t.len →
      exec .u8 s = .next { s with
        txn := some
          { t with
            i := t.i + 1, c := t.c + 8, k := t.k + 1,
            record := t.record ++ [.uns 8 (Memory.read t.buf (t.c / 8)).toNat] } }) ∧
    (t.len < t.c / 8 + 1 →
      exec .u8 s = .next { s with
        txn := none,
        responses := s.responses ++ [.truncatedInput (if t.k = 0 then none else some (t.k - 1)) t.i] })

/-- R103: U16LE, `{b1, b0}`; the byte address may be odd. -/
def Obligations.U16leEmitsLittleEndian : Prop :=
  ∀ (s : State) (t : Txn), s.txn = some t → t.c % 8 = 0 → t.k < s.build.maxFields →
    decodeDesc 0x3000#16 = .ok .u16le ∧
    (t.c / 8 + 2 ≤ t.len →
      exec .u16le s = .next { s with
        txn := some
          { t with
            i := t.i + 1, c := t.c + 16, k := t.k + 1,
            record := t.record ++
            [.uns 16 (Memory.read t.buf (t.c / 8 + 1) ++ Memory.read t.buf (t.c / 8)).toNat] } }) ∧
    (t.len < t.c / 8 + 2 →
      exec .u16le s = .next { s with
        txn := none,
        responses := s.responses ++ [.truncatedInput (if t.k = 0 then none else some (t.k - 1)) t.i] })

/-- R104: U16BE, `{b0, b1}`. -/
def Obligations.U16beEmitsBigEndian : Prop :=
  ∀ (s : State) (t : Txn), s.txn = some t → t.c % 8 = 0 → t.k < s.build.maxFields →
    decodeDesc 0x4000#16 = .ok .u16be ∧
    (t.c / 8 + 2 ≤ t.len →
      exec .u16be s = .next { s with
        txn := some
          { t with
            i := t.i + 1, c := t.c + 16, k := t.k + 1,
            record := t.record ++
            [.uns 16 (Memory.read t.buf (t.c / 8) ++ Memory.read t.buf (t.c / 8 + 1)).toNat] } }) ∧
    (t.len < t.c / 8 + 2 →
      exec .u16be s = .next { s with
        txn := none,
        responses := s.responses ++ [.truncatedInput (if t.k = 0 then none else some (t.k - 1)) t.i] })

/-- R105: SKIP n moves the cursor by `8*n` and emits nothing; it truncates when its bytes are not all present. -/
def Obligations.SkipPassesWholeBytes : Prop :=
  ∀ (s : State) (t : Txn) (n : Nat), 1 ≤ n → n ≤ 255 → s.txn = some t → t.c % 8 = 0 →
    decodeDesc (0x6000#16 ||| BitVec.ofNat 16 n) = .ok (.skip n) ∧
    (t.c / 8 + n ≤ t.len →
      exec (.skip n) s = .next { s with txn := some { t with i := t.i + 1, c := t.c + 8 * n } }) ∧
    (t.len < t.c / 8 + n →
      exec (.skip n) s = .next { s with
        txn := none,
        responses := s.responses ++ [.truncatedInput (if t.k = 0 then none else some (t.k - 1)) t.i] })

/-- R120: BITS n emits `(b >> (8-p-n)) mod 2^n` of the byte `b` at the cursor, tagged with its width. -/
def Obligations.BitsEmitsPackedField : Prop :=
  ∀ (s : State) (t : Txn) (n : Nat), 1 ≤ n → n ≤ 8 → s.txn = some t → t.c % 8 + n ≤ 8 →
    t.k < s.build.maxFields →
    decodeDesc (0x5000#16 ||| BitVec.ofNat 16 n) = .ok (.bits n) ∧
    (t.c + n ≤ 8 * t.len →
      exec (.bits n) s = .next { s with
        txn := some
          { t with
            i := t.i + 1, c := t.c + n, k := t.k + 1,
            record := t.record ++
            [.uns n ((Memory.read t.buf (t.c / 8) >>> (8 - t.c % 8 - n)).toNat % 2 ^ n)] } }) ∧
    (8 * t.len < t.c + n →
      exec (.bits n) s = .next { s with
        txn := none,
        responses := s.responses ++ [.truncatedInput (if t.k = 0 then none else some (t.k - 1)) t.i] })

/-- R121: PAD n moves the cursor by `n` bits and emits nothing; it truncates when its byte is missing. -/
def Obligations.PadPassesBits : Prop :=
  ∀ (s : State) (t : Txn) (n : Nat), 1 ≤ n → n ≤ 7 → s.txn = some t → t.c % 8 + n ≤ 8 →
    decodeDesc (0x7000#16 ||| BitVec.ofNat 16 n) = .ok (.pad n) ∧
    (t.c + n ≤ 8 * t.len →
      exec (.pad n) s = .next { s with txn := some { t with i := t.i + 1, c := t.c + n } }) ∧
    (8 * t.len < t.c + n →
      exec (.pad n) s = .next { s with
        txn := none,
        responses := s.responses ++ [.truncatedInput (if t.k = 0 then none else some (t.k - 1)) t.i] })

/-- R88: END answers OK with the record and `nfields = k`, whatever `len` is, and ends the transaction. -/
def Obligations.EndAnswersRecord : Prop :=
  ∀ (s : State) (t : Txn), s.txn = some t → t.c % 8 = 0 →
    decodeDesc 0x0000#16 = .ok .endTable ∧
    exec .endTable s = .next { s with txn := none, responses := s.responses ++ [.okDecode t.record t.k] }

/-- R88, R89: in a good state whose walk has passed every descriptor before END, the word at the entry index is END, and
END completes: it answers OK with the value of every output descriptor of the table, `nfields` their number, ends the
transaction and changes nothing else. -/
def Obligations.EndCompletesWalk : Prop :=
  ∀ (s : State) (t : Txn), s.Inv → s.txn = some t → t.i = (s.build.program t.ver).length →
    decodeDesc (Memory.read (s.build.table t.ver) t.i) = .ok .endTable ∧
    exec .endTable s = .next { s with
      txn := none,
      responses := s.responses ++
        [.okDecode (recordFrom t.buf 0 (s.build.program t.ver)) (outputCount (s.build.program t.ver))] }

/-- R83, R47 (WF1, WF3, WF4, WF5, WF7): a descriptor that R63 rules out, or one where the table checks do not allow it,
gives no next state. That the step refuses it, by the name of the check and the entry index, is the model's choice (log
entry 7): the spec has no such run. -/
def Obligations.MisplacedDescriptorsRefused : Prop :=
  ∀ (s : State) (t : Txn), s.txn = some t →
    (∀ e : Instr, e.isDescriptor = true → e.wf = false →
      exec e s = .refused (.outsideWalk t.ver .wf1 t.i)) ∧
    (∀ e : Instr, e.wf = true → t.c % 8 ≠ 0 →
      (e = .u8 ∨ e = .u16le ∨ e = .u16be ∨ (∃ n, e = .str n) ∨ ∃ n, e = .skip n) →
      exec e s = .refused (.outsideWalk t.ver .wf3 t.i)) ∧
    (∀ (e : Instr) (n : Nat), e.wf = true → (e = .bits n ∨ e = .pad n) → 8 < t.c % 8 + n →
      exec e s = .refused (.outsideWalk t.ver .wf4 t.i)) ∧
    (t.c % 8 ≠ 0 → exec .endTable s = .refused (.outsideWalk t.ver .wf5 t.i)) ∧
    (∀ e : Instr, e.defect t.c = none → e.isOutput = true → s.build.maxFields ≤ t.k →
      exec e s = .refused (.outsideWalk t.ver .wf7 t.i))

/-- R83, R84, R69 (WF1, WF2): a table whose entry `j`, before its first END, is an illegal word by `op`, by `rsv` or by
its count (R69 (a), (b), (c)) fails WF1 at `j`, when `j` is the first; a table with no END in its slots fails WF2; neither
is built. So no slot of a built block holds an illegal word, and a walk that leaves the slots has no next state (refusing
it in the step is the model's choice, log entry 7; that WF2 is named before WF1, and its index, log entry 9). -/
def Obligations.IllegalEntriesRefused : Prop :=
  (∀ (b : Build) (v : Version) (j m : Nat), j < m → m < b.maxEntries → Memory.read (b.table v) m = 0x0000#16 →
    (∀ i, i < j → Memory.read (b.table v) i ≠ 0x0000#16 ∧ ¬ illegalWord (Memory.read (b.table v) i)) →
    illegalWord (Memory.read (b.table v) j) →
    b.check v = some (.wf1, j) ∧ ∃ r, b.construct = .error r) ∧
  (∀ (b : Build) (v : Version), (∀ i, i < b.maxEntries → Memory.read (b.table v) i ≠ 0x0000#16) →
    b.check v = some (.wf2, b.maxEntries) ∧ ∃ r, b.construct = .error r) ∧
  (∀ (s : State) (v : Version) (i : Nat), i < s.build.maxEntries →
    ¬ illegalWord (Memory.read (s.build.table v) i) ∧ ∃ e, decodeDesc (Memory.read (s.build.table v) i) = .ok e) ∧
  (∀ (s : State) (t : Txn), s.txn = some t → s.build.maxEntries ≤ t.i →
    step s = .refused (.outsideWalk t.ver .wf2 t.i))

/-- R24, R31, R165 (log entry 13): outside a DECODE no descriptor has a meaning, and inside one or with no request
waiting no request operation has one; each is refused by name. -/
def Obligations.OutOfPlaceOperationsRefused : Prop :=
  ∀ s : State,
    (s.txn = none → ∀ e : Instr, e.isDescriptor = true → exec e s = .refused .noTransaction) ∧
    (∀ t, s.txn = some t →
      exec .decode s = .refused .transactionInProgress ∧ exec .tableRead s = .refused .transactionInProgress) ∧
    (s.txn = none → s.requests = [] →
      exec .decode s = .refused .noRequest ∧ exec .tableRead s = .refused .noRequest)

/-- R86: the fit check of every descriptor but END, gaps included. It fits: the cursor moves by `W(e)`, the index by 1,
and one value is added exactly for an output descriptor. It does not: TruncatedInput with `last_field` and
`fail_entry`, and no record. -/
def Obligations.FitCheckDecides : Prop :=
  ∀ (s : State) (t : Txn) (e : Instr), s.txn = some t → e.inWalk = true → e.defect t.c = none →
    (e.isOutput = true → t.k < s.build.maxFields) →
    (t.c + e.width ≤ 8 * t.len →
      ∃ vs : List Value, vs.length = (if e.isOutput then 1 else 0) ∧
        exec e s = .next { s with
        txn := some
          { t with
            i := t.i + 1, c := t.c + e.width, k := t.k + vs.length, record := t.record ++ vs } }) ∧
    (8 * t.len < t.c + e.width →
      exec e s = .next { s with
        txn := none,
        responses := s.responses ++ [.truncatedInput (if t.k = 0 then none else some (t.k - 1)) t.i] })

/-! ### Requests -/

/-- R81, R24: an accepted DECODE is taken from the port and starts the walk with the working state of R24; it answers
nothing yet (log entry 1). -/
def Obligations.DecodeStartsWalk : Prop :=
  ∀ (s : State) (r : Request) (rs : List Request) (v : Version), s.txn = none →
    s.requests = r :: rs → r.len ≤ s.build.maxLen →
    (r.ver = 0#8 ∧ v = .a ∨ r.ver = 1#8 ∧ v = .b) →
    decodeReq 0b00#2 = .ok .decode ∧
    exec .decode s = .next { s with
      requests := rs,
      txn := some
        { ver := v, buf := r.buf, len := r.len, i := 0, c := 0, k := 0, record := [] } }

/-- R92: TABLE_READ answers the word of the entry, `0x0000` past the table's END, whatever `len` and `buf` are. -/
def Obligations.TableReadAnswersWord : Prop :=
  ∀ (s : State) (r : Request) (rs : List Request) (v : Version), s.txn = none →
    s.requests = r :: rs → r.idx < s.build.maxEntries →
    (r.ver = 0#8 ∧ v = .a ∨ r.ver = 1#8 ∧ v = .b) →
    decodeReq 0b01#2 = .ok .tableRead ∧
    exec .tableRead s = .next { s with
      requests := rs,
      responses := s.responses ++ [.okTableRead (Memory.read (s.build.table v) r.idx)] } ∧
    ((s.build.program v).length ≤ r.idx → Memory.read (s.build.table v) r.idx = 0x0000#16)

/-- R80, R145, R146: the checks of a request in their order, each answered with a status and nothing else: a reserved
`req_op`, then `len` of a DECODE or `idx` of a TABLE_READ, whatever `ver` is, then a `ver` that names no version. -/
def Obligations.RequestChecksInOrder : Prop :=
  ∀ (s : State) (r : Request) (rs : List Request), s.txn = none → s.requests = r :: rs →
    (r.reqOp ≠ 0b00#2 → r.reqOp ≠ 0b01#2 →
      step s = .next { s with requests := rs, responses := s.responses ++ [.badRequest] }) ∧
    (r.reqOp = 0b00#2 → s.build.maxLen < r.len →
      step s = .next { s with requests := rs, responses := s.responses ++ [.badRequest] }) ∧
    (r.reqOp = 0b01#2 → s.build.maxEntries ≤ r.idx →
      step s = .next { s with requests := rs, responses := s.responses ++ [.badRequest] }) ∧
    ((r.reqOp = 0b00#2 ∧ r.len ≤ s.build.maxLen ∨ r.reqOp = 0b01#2 ∧ r.idx < s.build.maxEntries) →
      2 ≤ r.ver.toNat →
      step s = .next { s with requests := rs, responses := s.responses ++ [.badVersion] })

/-- R163, R83: parameters with a table that fails a check are not built: the construction refuses them, naming the check
and its index (naming version A first is the model's choice, log entry 9). What is built are the parameters as given, and
both their tables pass every check, so that no state has a block that does not. That every set of parameters that passes
the checks and fits the ROM is built, one with `R(B)` other than 102 too, is the model's reading of R163 (log entry 21). -/
def Obligations.UnbuildableBlockRefuses : Prop :=
  (∀ (b : Build) (k : WfCheck) (j : Nat),
    (b.check .a = some (k, j) → b.construct = .error (.illFormedTable .a k j)) ∧
    (b.check .b = some (k, j) → b.tableRefusal .a = none → b.construct = .error (.illFormedTable .b k j)) ∧
    (b.check .b = some (k, j) → ∃ r, b.construct = .error r)) ∧
  (∀ (b : Build) (B : Block), b.construct = .ok B → B.build = b ∧ ∀ v, b.check v = none) ∧
  (∀ b : Build, (∀ v, b.check v = none ∧ (b.table v).fitsRom b.maxEntries = true) → ∃ B, b.construct = .ok B) ∧
  ∀ (s : State) (v : Version), s.build.check v = none ∧
    ∀ i, s.build.maxEntries ≤ i → Memory.read (s.build.table v) i = 0x0000#16

/-! ### Bits and bytes -/

/-- R8, R45: what BITS, U8 and U16BE emit is the number that the stream bits from the cursor on spell, the first of
them the most significant. -/
def Obligations.FieldsAreStreamBits : Prop :=
  ∀ (buf : Buffer) (c : Nat),
    (∀ n, c % 8 + n ≤ 8 → bitField (Memory.read buf (c / 8)) (c % 8) n = streamBits buf c n) ∧
    (c % 8 = 0 → (Memory.read buf (c / 8)).toNat = streamBits buf c 8) ∧
    (c % 8 = 0 →
      valueBE (Memory.read buf (c / 8)) (Memory.read buf (c / 8 + 1)) = streamBits buf c 16)

/-- R123: of two fields that follow each other in a byte, the second takes the bits just below the first; together they
are the field of their joint width. -/
def Obligations.DeclaredOrderFillsByte : Prop :=
  ∀ (b : Byte) (p n m : Nat), 1 ≤ n → 1 ≤ m → p + n + m ≤ 8 →
    bitField b p (n + m) = bitField b p n * 2 ^ m + bitField b (p + n) m ∧ bitField b p n < 2 ^ n

/-- R122: for a BITS or PAD inside one byte, the fit check is the presence of that byte. -/
def Obligations.SubByteFitIsBytePresence : Prop :=
  ∀ (t : Txn) (n : Nat), 1 ≤ n → t.c % 8 + n ≤ 8 → (t.fits n = true ↔ t.c / 8 < t.len)

/-- Log entry 4 (the model's own choice): the canonical form in which the two address spaces of R40 and R41 are held, and
the write that puts them together outside the block, which itself never writes (R44). A write keeps the form, the written
cell reads back and every other cell reads as before; and two canonical memories that read alike are equal. -/
def Obligations.MemoryIsCanonical : Prop :=
  ∀ (w : Nat) (m m' : Memory w), Memory.wf m = true → Memory.wf m' = true →
    (∀ (a : Nat) (x : BitVec w), Memory.wf (Memory.write m a x) = true ∧
      ∀ b, Memory.read (Memory.write m a x) b = if b = a then x else Memory.read m b) ∧
    ((∀ a, Memory.read m a = Memory.read m' a) → m = m')

/-! ### Layout tables -/

/-- R83: a table passes the checks exactly when WF1 to WF8 hold of it, with `m`, `e_j` and `c_j` as the rule says: `es`
is the list of the descriptors before the first END. -/
def Obligations.WellFormednessIsChecks : Prop :=
  ∀ (T : Table) (maxLen maxEntries maxFields : Nat),
    T.check maxLen maxEntries maxFields = none ↔
      ∃ es : List Instr,
        (es.length < maxEntries ∧ Memory.read T es.length = 0x0000#16) ∧
        (∀ (j : Nat) (h : j < es.length),
          Memory.read T j ≠ 0x0000#16 ∧ decodeDesc (Memory.read T j) = .ok es[j]) ∧
        (∀ (j : Nat) (h : j < es.length),
          (es[j] = .u8 ∨ es[j] = .u16le ∨ es[j] = .u16be ∨ (∃ n, es[j] = .str n) ∨ ∃ n, es[j] = .skip n) →
          cursorAfter 0 (es.take j) % 8 = 0) ∧
        (∀ (j n : Nat) (h : j < es.length), (es[j] = .bits n ∨ es[j] = .pad n) →
          cursorAfter 0 (es.take j) % 8 + n ≤ 8) ∧
        cursorAfter 0 es % 8 = 0 ∧
        cursorAfter 0 es / 8 ≤ maxLen ∧
        outputCount es ≤ maxFields ∧
        ∀ j, es.length < j → j < maxEntries → Memory.read T j = 0x0000#16

/-- R46: in a table of a built block, of two descriptors the earlier ends where the later starts or before, and all
lie in the bits `[0, 8*R(v))`. -/
def Obligations.DescriptorsNeverOverlap : Prop :=
  ∀ (b : Block) (v : Version) (p q : Placed),
    p ∈ place 0 0 (b.build.program v) → q ∈ place 0 0 (b.build.program v) → p.entry < q.entry →
    p.cursor + p.desc.width ≤ q.cursor ∧ q.cursor + q.desc.width ≤ 8 * b.build.requiredLen v

/-- R163, R5: what the spec requires of the block's parameters at reset: both tables pass every check, `R(B) = 102`, and a
capacity of at least 102 bytes. With it R95 and R96 as log entry 8 reads them (DEDUCED): no `u16le` and no `u16be` in A,
exactly one `u16le` and no `u16be` in B, a `u8` for each of the 21 knobs named, and other skip-region lengths in B than in
A; and the header and the name at entries 0 and 1, the default of decision D4. -/
def Obligations.ResetParametersKnown : Prop :=
  (∀ v, State.reset.build.check v = none ∧ State.reset.build.requiredLen v ≤ State.reset.build.maxLen) ∧
  State.reset.build.requiredLen .b = 102 ∧ 102 ≤ State.reset.build.maxLen ∧ 1 ≤ State.reset.build.maxEntries ∧
  (∀ v, (State.reset.build.program v).take 2 = [.str 4, .str 16]) ∧
  Instr.u16le ∉ State.reset.build.program .a ∧ (State.reset.build.program .b).count .u16le = 1 ∧
  (∀ v, Instr.u16be ∉ State.reset.build.program v) ∧
  21 ≤ (State.reset.build.program .b).count .u8 ∧
  skipRegions (State.reset.build.program .a) ≠ skipRegions (State.reset.build.program .b)

/-- R92's example: on the block as reset leaves it, TABLE_READ of version B at entry 0 answers `0x1004`. That the header
stands at entry 0 is the default of decision D4, in R96 as log entry 8 reads it. -/
def Obligations.ResetTableReadsHeaderWord : Prop :=
  ∀ r : Request, r.reqOp = 0b01#2 → r.ver = 1#8 → r.idx = 0 →
    step (State.reset.submit r) = .next { State.reset with responses := [.okTableRead 0x1004#16] }

/-! ### The whole transaction -/

/-- R87: truncation is decided by the length alone. -/
def Obligations.TruncationIffTooShort : Prop :=
  ∀ (b : Block) (v : Version) (buf : Buffer) (len : Nat),
    ((∃ l e, decodeAll (b.build.program v) buf len = .truncatedInput l e) ↔ len < b.build.requiredLen v) ∧
    ((∃ vs n, decodeAll (b.build.program v) buf len = .okDecode vs n) ↔ b.build.requiredLen v ≤ len)

/-- R90: bytes past `R(v)` do not affect the result: any buffer of at least `R(v)` bytes decodes as its first `R(v)`
bytes do. -/
def Obligations.TrailingBytesIgnored : Prop :=
  ∀ (b : Block) (v : Version) (buf buf' : Buffer) (len : Nat), b.build.requiredLen v ≤ len →
    (∀ a, a < b.build.requiredLen v → Memory.read buf a = Memory.read buf' a) →
    decodeAll (b.build.program v) buf len = decodeAll (b.build.program v) buf' (b.build.requiredLen v)

/-- R80, R81, R92, R165: a request at an idle block is answered within `MAX_ENTRIES + 1` steps with exactly the response
of the transaction function, and nothing else of the state has changed. The step count is log entry 1's (the model's own
choice): one step takes the request and one more runs each descriptor. -/
def Obligations.StepsAnswerTheTransaction : Prop :=
  ∀ (s : State) (r : Request) (rs : List Request), s.Inv → s.txn = none → s.requests = r :: rs →
    ∃ n, n ≤ s.build.maxEntries + 1 ∧
      Host.Core.run Sys2Proof.core n s =
        .next { s with requests := rs, responses := s.responses ++ [transact s.build r] }

/-- R20: two DECODE requests with equal `ver`, `len` and first `len` bytes get equal responses, whatever either block
(of one build) answered before. -/
def Obligations.EqualRequestsEqualResponses : Prop :=
  ∀ (s s' : State) (r r' : Request) (rs rs' : List Request), s.Inv → s'.Inv → s.block = s'.block →
    s.txn = none → s'.txn = none → s.requests = r :: rs → s'.requests = r' :: rs' →
    r.reqOp = 0b00#2 → r'.reqOp = 0b00#2 → r.ver = r'.ver → r.len = r'.len →
    (∀ a, a < r.len → Memory.read r.buf a = Memory.read r'.buf a) →
    ∃ (n n' : Nat) (x : Response),
      Host.Core.run Sys2Proof.core n s = .next { s with requests := rs, responses := s.responses ++ [x] } ∧
      Host.Core.run Sys2Proof.core n' s' = .next { s' with requests := rs', responses := s'.responses ++ [x] }

/-- R89: a DECODE ends with the complete record of every output descriptor, `nfields` their number, or with an error that
carries no record. -/
def Obligations.AllOrNothing : Prop :=
  ∀ (s s' : State) (t : Txn), s.Inv → s.txn = some t → step s = .next s' → s'.txn = none →
    (∃ vs : List Value,
      s'.responses = s.responses ++ [.okDecode vs (outputCount (s.build.program t.ver))] ∧
      vs = recordFrom t.buf 0 (s.build.program t.ver) ∧
      vs.length = outputCount (s.build.program t.ver)) ∨
    (∃ l e, s'.responses = s.responses ++ [.truncatedInput l e])

/-- R93: each step of a walk ends the transaction or advances the entry index by 1, and the walk ends after at most
`m + 1 - i` descriptor steps, where `m + 1 <= MAX_ENTRIES`. -/
def Obligations.WalkTerminates : Prop :=
  ∀ (s : State) (t : Txn), s.Inv → s.txn = some t →
    (s.build.program t.ver).length + 1 ≤ s.build.maxEntries ∧
    decodeDesc (Memory.read (s.build.table t.ver) (s.build.program t.ver).length) = .ok .endTable ∧
    (∀ s', step s = .next s' → s'.txn = none ∨ ∃ t', s'.txn = some t' ∧ t'.i = t.i + 1) ∧
    ∃ (n : Nat) (x : Response), n ≤ (s.build.program t.ver).length + 1 - t.i ∧
      Host.Core.run Sys2Proof.core n s =
        .next { s with txn := none, responses := s.responses ++ [x] }

/-! ### Invariants and whole-machine rules -/

/-- The invariant holds of the state after reset (R160, R163). -/
def Obligations.InvariantAtReset : Prop := State.reset.Inv

/-- Every step keeps the invariant: the requests stay requests, the working state stays that of a walk (cursor, record and
ordinal those of the descriptors passed), and every response given is well-formed. -/
def Obligations.InvariantKept : Prop :=
  ∀ s s' : State, s.Inv → step s = .next s' → s'.Inv

/-- R83, R93, R144: from a good state a block always has a step: no descriptor of its tables is refused and nothing
faults. -/
def Obligations.BuiltBlockAlwaysSteps : Prop :=
  ∀ s : State, s.Inv → ∃ s', step s = .next s'

/-- R10, R86: no step ever reads the buffer at or past `len`: from no state whatever does a step fault. -/
def Obligations.NoStepFaults : Prop :=
  ∀ (s : State) (f : Fault), step s ≠ .fault f

/-- R44, R50, R55: no step writes the ROM, the capacities, or any buffer: the waiting requests are those before, or all
but the oldest, and a walk keeps its version, its buffer and its length. -/
def Obligations.NothingIsWritten : Prop :=
  ∀ s s' : State, step s = .next s' →
    s'.block = s.block ∧ (s'.requests = s.requests ∨ s'.requests = s.requests.tail) ∧
    (∀ t t', s.txn = some t → s'.txn = some t' → t'.ver = t.ver ∧ t'.buf = t.buf ∧ t'.len = t.len)

/-- R29, R20: no later step can observe a response: the responses given so far change nothing of what a step does. -/
def Obligations.ResponsesNotObserved : Prop :=
  ∀ (s : State) (old : List Response),
    match step s with
    | .next s' => step { s with responses := old ++ s.responses } = .next { s' with responses := old ++ s'.responses }
    | .fault f => step { s with responses := old ++ s.responses } = .fault f
    | .refused r => step { s with responses := old ++ s.responses } = .refused r

/-- R165, R97: no request is lost or answered twice and responses come in request order. A step keeps the number of
requests waiting, in progress and answered together and only appends to the responses, at most one; while a DECODE is in
progress it takes no request; and from an idle block it takes the oldest request and no other, which it answers at once or
whose DECODE it starts. -/
def Obligations.OneResponsePerRequest : Prop :=
  ∀ s s' : State, step s = .next s' →
    s'.requests.length + s'.txn.toList.length + s'.responses.length =
      s.requests.length + s.txn.toList.length + s.responses.length ∧
    (s'.responses = s.responses ∨ ∃ x, s'.responses = s.responses ++ [x]) ∧
    (s.txn.isSome = true → s'.requests = s.requests) ∧
    (s.txn = none → s'.requests = s.requests.tail) ∧
    (∀ r rs, s.txn = none → s.requests = r :: rs →
      (s'.txn = none ∧ ∃ x, s'.responses = s.responses ++ [x]) ∨
      (s'.responses = s.responses ∧
        ∃ t, s'.txn = some t ∧ Version.ofSelector r.ver = some t.ver ∧ t.buf = r.buf ∧ t.len = r.len))

/-- R9, R24, R25, R26: the entry index, the cursor and the value count stay inside their widths, so they never wrap. -/
def Obligations.WorkingStateFitsWidths : Prop :=
  ∀ (s : State) (t : Txn), s.Inv → s.txn = some t →
    t.i < s.build.maxEntries ∧ t.i < 2 ^ s.build.idxW ∧
    t.c ≤ 8 * s.build.requiredLen t.ver ∧ t.c < 2 ^ s.build.curW ∧
    t.k ≤ s.build.maxFields ∧ t.k < 2 ^ s.build.fieldsW

/-- R160, R31: reset leaves no transaction in progress and does not change the ROM; the state of a block just built is
such a state. That a reset keeps the responses the host already has is log entry 3 (the model's own choice). -/
def Obligations.ResetLeavesNoTransaction : Prop :=
  (∀ s : State, s.applyReset.txn = none ∧ s.applyReset.block = s.block ∧
    s.applyReset.responses = s.responses) ∧
  State.reset.txn = none ∧ State.reset.applyReset = State.reset

/-- R161, R162: a request in progress gets no response from a reset, and the first request after it gets the response it
would get at any other time. The model's own choices in it: a request queued before the reset is still there to be
answered after it (log entry 3), and a reset may be applied in the middle of a walk (log entry 17), where the transaction
model of R162 has it fall between requests. -/
def Obligations.FirstRequestAfterReset : Prop :=
  ∀ (s : State) (r : Request) (rs : List Request), s.Inv → s.requests = r :: rs →
    ∃ n, n ≤ s.build.maxEntries + 1 ∧
      Host.Core.run Sys2Proof.core n s.applyReset =
        .next { block := s.block, txn := none, requests := rs,
                responses := s.responses ++ [transact s.build r] }

/-- R140, R68, R143, R23: the status of each response with its code, and the fields valid beside it: a record and its
count or a word for OK, `last_field` and `fail_entry` for TruncatedInput, and nothing for any other status. -/
def Obligations.StatusDecidesFields : Prop :=
  ∀ x : Response,
    (x.status.code = 0#2 ↔ x.status = .ok) ∧ (x.status.code = 1#2 ↔ x.status = .truncatedInput) ∧
    (x.status.code = 2#2 ↔ x.status = .badVersion) ∧ (x.status.code = 3#2 ↔ x.status = .badRequest) ∧
    (x.status ≠ .ok → x.recordField = none ∧ x.nfieldsField = none ∧ x.wordField = none) ∧
    (x.status = .truncatedInput → x.lastFieldField.isSome = true ∧ x.failEntryField.isSome = true) ∧
    (x.status ≠ .truncatedInput → x.lastFieldField = none ∧ x.failEntryField = none) ∧
    (x.status = .ok → x.recordField.isSome = x.nfieldsField.isSome ∧
      (x.recordField.isSome = true ↔ x.wordField = none))

/-! ### The assembler -/

/-- R72: the expansion of `skipbits N` at any cursor moves it by exactly `N` bits, with gap descriptors (SKIP and
PAD) only, each legal and where it may stand. -/
def Obligations.SkipbitsMovesExactly : Prop :=
  ∀ c n : Nat,
    cursorAfter c (expandSkipbits c n) = c + n ∧
    ∀ (j : Nat) (h : j < (expandSkipbits c n).length),
      (expandSkipbits c n)[j].inWalk = true ∧ (expandSkipbits c n)[j].isOutput = false ∧
      (expandSkipbits c n)[j].defect (cursorAfter c ((expandSkipbits c n).take j)) = none

/-- R73: a listing that is transcribed, whichever end its bit positions count from, its strings starting at byte
boundaries, gives a layout that ends in END, in which every descriptor stands where it may and END at a byte boundary. -/
def Obligations.TranscribedLayoutIsPlaced : Prop :=
  ∀ (origin : BitOrigin) (fs : List ListingField) (total : Option Nat) (es : List Instr),
    transcribe origin fs total = .ok es →
    (∀ f ∈ fs, ∀ m, f.kind = .string m → f.pos = 0) →
    ∃ ds : List Instr, es = ds ++ [.endTable] ∧ cursorAfter 0 ds % 8 = 0 ∧
      ∀ (j : Nat) (h : j < ds.length), ds[j].inWalk = true ∧ ds[j].defect (cursorAfter 0 (ds.take j)) = none

/-- R73, U7: a position counted from the least significant bit is `p = 8 - w - p_lsb` from the top wherever the field lies
in one byte. Outside one byte, where the formula has no value, only a field of whole bytes with `p_lsb = 0` has a position,
the top of its first byte (log entry 20, the model's own choice). -/
def Obligations.LsbPositionsConvert : Prop :=
  ∀ w pLsb : Nat,
    (w + pLsb ≤ 8 → ∃ p, posFromLsb w pLsb = some p ∧ p + w + pLsb = 8) ∧
    (8 < w + pLsb → w % 8 = 0 → pLsb = 0 → posFromLsb w pLsb = some 0) ∧
    (8 < w + pLsb → (w % 8 ≠ 0 ∨ pLsb ≠ 0) → posFromLsb w pLsb = none)
end

