-- ==== Sys2Proof/Laws/Layout.lean ====
section
/-! SUPPORT. The laws of the decoder and of layout tables: what a decoded descriptor is, the arithmetic of cursors and
ordinals, and what a table that passes every check (R83) gives the walk. -/

namespace Sys2Proof

/-! ### Decoding -/

/-- What the decoder accepts: `rsv = 0`, the kind of `op`, and a count in its range. -/
theorem decodeDesc_eq_ok {w : Word} {e : Instr} (h : decodeDesc w = .ok e) :
    opField w < 8 ∧ rsvField w = 0 ∧ kindOf (opField w) (countField w) = some e ∧ e.wf = true := by
  unfold decodeDesc at h
  split at h
  · cases h
  · split at h
    · cases h
    · split at h
      · cases h
      · split at h
        · cases h
          refine ⟨by omega, ?_, ‹_›, ‹_›⟩
          simpa using ‹¬ rsvField w ≠ 0›
        · cases h

theorem decodeDesc_wf {w : Word} {e : Instr} (h : decodeDesc w = .ok e) : e.wf = true :=
  (decodeDesc_eq_ok h).2.2.2

theorem decodeDesc_isDescriptor {w : Word} {e : Instr} (h : decodeDesc w = .ok e) : e.isDescriptor = true := by
  have hk := (decodeDesc_eq_ok h).2.2.1
  unfold kindOf at hk
  split at hk <;> simp at hk <;> subst hk <;> rfl

/-- A word is its three fields (R60). -/
theorem word_eq_fields (w : Word) : w.toNat = 4096 * opField w + 256 * rsvField w + countField w := by
  have := w.isLt
  simp only [opField, rsvField, countField, slice]
  omega

/-- Only the word `0x0000` is END. -/
theorem decodeDesc_eq_end {w : Word} (h : decodeDesc w = .ok .endTable) : w = 0x0000#16 := by
  obtain ⟨-, hr, hk, -⟩ := decodeDesc_eq_ok h
  have hw := word_eq_fields w
  unfold kindOf at hk
  split at hk <;> simp_all
  exact BitVec.eq_of_toNat_eq (by simpa using hw)

theorem decodeDesc_zero : decodeDesc 0x0000#16 = .ok .endTable := rfl

/-! ### Cursors and ordinals -/

@[simp] theorem cursorAfter_nil (c : Nat) : cursorAfter c [] = c := rfl

@[simp] theorem cursorAfter_cons (c : Nat) (e : Instr) (es : List Instr) :
    cursorAfter c (e :: es) = cursorAfter (c + e.width) es := rfl

@[simp] theorem cursorAfter_append (c : Nat) (es fs : List Instr) :
    cursorAfter c (es ++ fs) = cursorAfter (cursorAfter c es) fs := by
  simp [cursorAfter]

theorem cursorAfter_eq_add (c : Nat) (es : List Instr) : cursorAfter c es = c + cursorAfter 0 es := by
  induction es generalizing c with
  | nil => rfl
  | cons e es ih => rw [cursorAfter_cons, ih (c + e.width), cursorAfter_cons, ih (0 + e.width)]; omega

theorem le_cursorAfter (c : Nat) (es : List Instr) : c ≤ cursorAfter c es := by
  rw [cursorAfter_eq_add]; omega

/-- One more descriptor moves the cursor by its width (R26). -/
theorem cursorAfter_take_succ (c : Nat) (es : List Instr) {i : Nat} (hi : i < es.length) :
    cursorAfter c (es.take (i + 1)) = cursorAfter c (es.take i) + es[i].width := by
  rw [List.take_succ_eq_append_getElem hi, cursorAfter_append, cursorAfter_cons, cursorAfter_nil]

theorem cursorAfter_take_le (c : Nat) (es : List Instr) (i : Nat) :
    cursorAfter c (es.take i) ≤ cursorAfter c es := by
  conv_rhs => rw [← List.take_append_drop i es, cursorAfter_append]
  exact le_cursorAfter _ _

@[simp] theorem outputCount_nil : outputCount [] = 0 := rfl

@[simp] theorem outputCount_append (es fs : List Instr) :
    outputCount (es ++ fs) = outputCount es + outputCount fs := by
  simp [outputCount]

theorem outputCount_cons (e : Instr) (es : List Instr) :
    outputCount (e :: es) = (if e.isOutput then 1 else 0) + outputCount es := by
  cases h : e.isOutput <;> simp [outputCount, h]
  omega

theorem outputCount_take_succ (es : List Instr) {i : Nat} (hi : i < es.length) :
    outputCount (es.take (i + 1)) = outputCount (es.take i) + (if es[i].isOutput then 1 else 0) := by
  rw [List.take_succ_eq_append_getElem hi, outputCount_append, outputCount_cons, outputCount_nil, Nat.add_zero]

theorem outputCount_take_le (es : List Instr) (i : Nat) : outputCount (es.take i) ≤ outputCount es := by
  conv_rhs => rw [← List.take_append_drop i es, outputCount_append]
  omega

@[simp] theorem length_place (j c : Nat) (es : List Instr) : (place j c es).length = es.length := by
  induction es generalizing j c with
  | nil => rfl
  | cons e es ih => simp [place, ih]

/-- Where descriptor `i` of a list stands. -/
theorem getElem_place (j c : Nat) (es : List Instr) {i : Nat} (hi : i < es.length) :
    (place j c es)[i]'(by simpa using hi) = ⟨j + i, cursorAfter c (es.take i), es[i]⟩ := by
  induction es generalizing j c i with
  | nil => simp at hi
  | cons e es ih =>
    cases i with
    | zero => rfl
    | succ i =>
      have hi' : i < es.length := by simpa using hi
      simp only [place, List.getElem_cons_succ, ih (j + 1) (c + e.width) hi', List.take_succ_cons, cursorAfter_cons]
      rw [show j + 1 + i = j + (i + 1) by omega]

/-! ### Table words -/

@[simp] theorem Table.length_slots (T : Table) (n : Nat) : (T.slots n).length = n := by simp [Table.slots]

theorem Table.length_entryWords_le (T : Table) (n : Nat) : (T.entryWords n).length ≤ n := by
  simpa [Table.entryWords] using (List.takeWhile_sublist (l := T.slots n) (fun w => w != 0x0000#16)).length_le

theorem Table.getElem_entryWords (T : Table) (n : Nat) {i : Nat} (hi : i < (T.entryWords n).length) :
    (T.entryWords n)[i] = Memory.read T i := by
  have hp : T.entryWords n <+: T.slots n := List.takeWhile_prefix _
  rw [hp.getElem hi]
  simp [Table.slots]

/-- The word at index `m`, the first after the entries, is END if `m` is a slot. -/
theorem Table.read_at_end (T : Table) (n : Nat) (hm : (T.entryWords n).length < n) :
    Memory.read T (T.entryWords n).length = 0x0000#16 := by
  by_contra hne
  have hlen : (T.entryWords n).length + ((T.slots n).dropWhile (fun w => w != 0x0000#16)).length = n := by
    have h := congrArg List.length (List.takeWhile_append_dropWhile (p := fun w => w != 0x0000#16) (l := T.slots n))
    rwa [List.length_append, Table.length_slots] at h
  have hpos : 0 < ((T.slots n).dropWhile (fun w => w != 0x0000#16)).length := by omega
  have h0 := List.dropWhile_get_zero_not (fun w => w != 0x0000#16) (T.slots n) hpos
  have hq : (T.slots n)[(T.entryWords n).length]? =
      ((T.slots n).dropWhile (fun w => w != 0x0000#16))[0]? := by
    conv_lhs => rw [← List.takeWhile_append_dropWhile (p := fun w => w != 0x0000#16) (l := T.slots n)]
    rw [List.getElem?_append_right (by simp [Table.entryWords])]
    simp [Table.entryWords]
  rw [List.getElem?_eq_getElem hpos, List.getElem?_eq_getElem (by simpa using hm)] at hq
  have hget := Option.some.inj hq
  simp only [Table.slots, List.getElem_map, List.getElem_range] at hget
  simp only [List.get_eq_getElem, Table.slots] at h0
  rw [← hget] at h0
  simp [hne] at h0

/-- What a table that passes every check gives (R83). -/
structure Table.Good (T : Table) (maxLen maxEntries maxFields : Nat) : Prop where
  /-- WF2. -/
  ends : (T.program maxEntries).length < maxEntries
  /-- The word after the entries is END. -/
  endWord : Memory.read T (T.program maxEntries).length = 0x0000#16
  /-- WF1: entry `i` is the word of descriptor `i`. -/
  word : ∀ (i : Nat) (hi : i < (T.program maxEntries).length),
    decodeDesc (Memory.read T i) = .ok (T.program maxEntries)[i]
  /-- A descriptor before END is not END. -/
  notEnd : ∀ e ∈ T.program maxEntries, e ≠ .endTable
  /-- WF3, WF4: each descriptor stands where it may. -/
  placed : ∀ (i : Nat) (hi : i < (T.program maxEntries).length),
    (T.program maxEntries)[i].defect (cursorAfter 0 ((T.program maxEntries).take i)) = none
  /-- WF5. -/
  aligned : cursorAfter 0 (T.program maxEntries) % 8 = 0
  /-- WF6. -/
  fits : cursorAfter 0 (T.program maxEntries) / 8 ≤ maxLen
  /-- WF7. -/
  records : outputCount (T.program maxEntries) ≤ maxFields
  /-- WF8. -/
  padded : ∀ j, (T.program maxEntries).length < j → j < maxEntries → Memory.read T j = 0x0000#16

/-- A list in which every word decodes gives one descriptor a word. -/
theorem filterMap_decode {ws : List Word} (h : ∀ w ∈ ws, (decodeDesc w).toOption.isSome = true) :
    ∃ es : List Instr, ws.filterMap (fun w => (decodeDesc w).toOption) = es ∧ es.length = ws.length ∧
      ∀ (i : Nat) (hi : i < ws.length) (hi' : i < es.length), decodeDesc ws[i] = .ok es[i] := by
  induction ws with
  | nil => exact ⟨[], rfl, rfl, by simp⟩
  | cons w ws ih =>
    obtain ⟨es, h1, h2, h3⟩ := ih fun x hx => h x (List.mem_cons_of_mem _ hx)
    have hw := h w List.mem_cons_self
    cases hd : decodeDesc w with
    | error r => simp [hd, Except.toOption] at hw
    | ok e =>
      refine ⟨e :: es, by rw [List.filterMap_cons_some (b := e) (by rw [hd]; rfl), h1], by simp [h2], ?_⟩
      intro i hi hi'
      cases i with
      | zero => exact hd
      | succ i => exact h3 i (by simpa using hi) (by simpa using hi')

theorem firstDefect_eq_none {k : WfCheck} {ps : List Placed} (h : firstDefect k ps = none) :
    ∀ p ∈ ps, p.desc.defect p.cursor ≠ some k := by
  intro p hp hk
  simp only [firstDefect, Option.map_eq_none_iff, List.find?_eq_none] at h
  exact h p hp (by simp [hk])

/-- The checks a well-formed descriptor other than END can fail are WF3 and WF4. -/
theorem Instr.defect_cases {e : Instr} (hw : e.wf = true) (hd : e.isDescriptor = true) (he : e ≠ .endTable) (c : Nat) :
    e.defect c = none ∨ e.defect c = some .wf3 ∨ e.defect c = some .wf4 := by
  cases e <;> simp_all [Instr.defect, Instr.isDescriptor] <;> omega

/-- A table with no failing check is good. -/
theorem Table.good_of_check {T : Table} {maxLen maxEntries maxFields : Nat}
    (h : T.check maxLen maxEntries maxFields = none) : T.Good maxLen maxEntries maxFields := by
  unfold Table.check at h
  simp only at h
  split at h
  · cases h
  rename_i hm
  simp only [Option.or_eq_none_iff, Option.map_eq_none_iff] at h
  obtain ⟨h1, h3, h4, h⟩ := h
  split at h
  · cases h
  rename_i h5
  split at h
  · cases h
  rename_i h6
  split at h
  · cases h
  rename_i h7
  simp only [Option.map_eq_none_iff] at h
  have hall : ∀ w ∈ T.entryWords maxEntries, (decodeDesc w).toOption.isSome = true := by
    intro w hw
    have := List.findIdx?_eq_none_iff.mp h1 w hw
    simpa using this
  obtain ⟨es, he1, he2, he3⟩ := filterMap_decode hall
  have hprog : T.program maxEntries = es := he1
  have hlen : (T.program maxEntries).length = (T.entryWords maxEntries).length := by rw [hprog, he2]
  have hword : ∀ (i : Nat) (hi : i < (T.program maxEntries).length),
      decodeDesc (Memory.read T i) = .ok (T.program maxEntries)[i] := by
    intro i hi
    have hi' : i < (T.entryWords maxEntries).length := by omega
    rw [← Table.getElem_entryWords T maxEntries hi']
    simp only [hprog]
    exact he3 i hi' (by omega)
  have hne : ∀ e ∈ T.program maxEntries, e ≠ .endTable := by
    intro e he hend
    obtain ⟨i, hi, rfl⟩ := List.getElem_of_mem he
    have hz := decodeDesc_eq_end (hend ▸ hword i hi)
    have hi' : i < (T.entryWords maxEntries).length := by omega
    have hmem : (T.entryWords maxEntries)[i] ∈ (T.slots maxEntries).takeWhile (fun w => w != 0x0000#16) :=
      List.getElem_mem hi'
    have := List.mem_takeWhile_imp hmem
    rw [Table.getElem_entryWords T maxEntries hi'] at this
    simp [hz] at this
  have hend : Memory.read T (T.program maxEntries).length = 0x0000#16 := by
    rw [hlen]; exact T.read_at_end maxEntries (by omega)
  refine ⟨by omega, hend, hword, hne, ?_, by omega, by omega, by omega, ?_⟩
  · intro i hi
    have hp : (place 0 0 (T.program maxEntries))[i]'(by simpa using hi) ∈ place 0 0 (T.program maxEntries) :=
      List.getElem_mem _
    have e3 := firstDefect_eq_none h3 _ hp
    have e4 := firstDefect_eq_none h4 _ hp
    rw [getElem_place 0 0 _ hi] at e3 e4
    rcases Instr.defect_cases (decodeDesc_wf (hword i hi)) (decodeDesc_isDescriptor (hword i hi))
      (hne _ (List.getElem_mem hi)) (cursorAfter 0 ((T.program maxEntries).take i)) with h0 | h0 | h0
    · exact h0
    · exact absurd h0 e3
    · exact absurd h0 e4
  · intro j hj1 hj2
    have hmem : Memory.read T j ∈ (T.slots maxEntries).drop ((T.entryWords maxEntries).length + 1) := by
      have : ((T.slots maxEntries).drop ((T.entryWords maxEntries).length + 1))[
          j - ((T.entryWords maxEntries).length + 1)]'(by simp; omega) = Memory.read T j := by
        rw [List.getElem_drop]
        simp only [Table.slots, List.getElem_map, List.getElem_range]
        congr 1; omega
      exact this ▸ List.getElem_mem _
    have := List.findIdx?_eq_none_iff.mp h _ hmem
    simpa using this

/-! ### Built blocks -/

theorem Build.wf_iff_refusal {b : Build} : b.wf = true ↔ b.refusal = none := by
  simp [Build.wf]

theorem Build.tableRefusal_eq_none {b : Build} {v : Version} :
    b.tableRefusal v = none ↔ b.check v = none ∧ (b.table v).fitsRom b.maxEntries = true := by
  unfold Build.tableRefusal
  split <;> simp_all

/-- R83, R163: a block can be built exactly when each table passes every check and is a ROM of `MAX_ENTRIES` slots. -/
theorem Build.wf_iff {b : Build} :
    b.wf = true ↔ ∀ v, b.check v = none ∧ (b.table v).fitsRom b.maxEntries = true := by
  rw [Build.wf_iff_refusal, Build.refusal, Option.or_eq_none_iff, Build.tableRefusal_eq_none, Build.tableRefusal_eq_none]
  refine ⟨fun h v => ?_, fun h => ⟨h .a, h .b⟩⟩
  cases v with
  | a => exact h.1
  | b => exact h.2

/-- Parameters that pass every check are built into a block with just these parameters. -/
theorem Build.construct_of_wf {b : Build} (h : b.wf = true) : b.construct = .ok ⟨b, h⟩ := by
  unfold Build.construct
  split
  · rename_i r hr; rw [Build.wf, hr] at h; cases h
  · rfl

/-- Parameters that fail a check are refused by it. -/
theorem Build.construct_of_refusal {b : Build} {r : BuildRefusal} (h : b.refusal = some r) : b.construct = .error r := by
  unfold Build.construct
  split
  · rename_i r' hr; rw [h] at hr; cases hr; rfl
  · rename_i hr; rw [h] at hr; cases hr

/-- Both tables of a built block are good (R163). -/
theorem Build.good_of_wf {b : Build} (h : b.wf = true) (v : Version) :
    (b.table v).Good b.maxLen b.maxEntries b.maxFields :=
  Table.good_of_check (Build.wf_iff.mp h v).1

theorem Build.check_eq_none {b : Build} (h : b.wf = true) (v : Version) : b.check v = none :=
  (Build.wf_iff.mp h v).1

theorem Block.good (b : Block) (v : Version) :
    (b.build.table v).Good b.build.maxLen b.build.maxEntries b.build.maxFields :=
  Build.good_of_wf b.ok v

/-- Every slot of a table that passes the checks holds a descriptor: ILLEGAL stands in none (R84). -/
theorem Table.Good.decodes {T : Table} {maxLen maxEntries maxFields : Nat} (G : T.Good maxLen maxEntries maxFields)
    {i : Nat} (hi : i < maxEntries) : ∃ e, decodeDesc (Memory.read T i) = .ok e := by
  rcases Nat.lt_trichotomy i (T.program maxEntries).length with h | h | h
  · exact ⟨_, G.word i h⟩
  · exact ⟨.endTable, by rw [h, G.endWord, decodeDesc_zero]⟩
  · exact ⟨.endTable, by rw [G.padded i h hi, decodeDesc_zero]⟩

end Sys2Proof
end

