-- ==== Sys2Proof/Laws/Memory.lean ====
section
/-! SUPPORT. The laws of an address space: read after write, and that every operation keeps the canonical form. -/

namespace Sys2Proof

variable {w : Nat}

@[simp] theorem Memory.read_nil (a : Nat) : Memory.read ([] : Memory w) a = Memory.blank w := rfl

theorem Memory.wfFrom_mono {m : Memory w} {a b : Nat} (h : Memory.wfFrom b m = true) (hab : a ≤ b) :
    Memory.wfFrom a m = true := by
  cases m with
  | nil => rfl
  | cons cell m =>
    simp only [Memory.wfFrom, Bool.and_eq_true, decide_eq_true_eq] at h ⊢
    exact ⟨⟨by omega, h.1.2⟩, h.2⟩

/-- Below its first possible address a canonical memory is blank. -/
theorem Memory.read_below {m : Memory w} {a b : Nat} (h : Memory.wfFrom b m = true) (hab : a < b) :
    Memory.read m a = Memory.blank w := by
  induction m generalizing b with
  | nil => rfl
  | cons cell m ih =>
    simp only [Memory.wfFrom, Bool.and_eq_true, decide_eq_true_eq] at h
    rw [Memory.read, if_neg (by omega)]
    exact ih h.2 (by omega)

theorem Memory.read_write_from {m : Memory w} {k : Nat} (h : Memory.wfFrom k m = true) (a : Nat) (x : BitVec w)
    (b : Nat) : Memory.read (Memory.write m a x) b = if b = a then x else Memory.read m b := by
  induction m generalizing k with
  | nil =>
    by_cases hx : x = Memory.blank w <;> by_cases hb : b = a <;> simp [Memory.write, Memory.read, hx, hb]
  | cons cell m ih =>
    obtain ⟨c, y⟩ := cell
    simp only [Memory.wfFrom, Bool.and_eq_true, decide_eq_true_eq] at h
    rcases Nat.lt_trichotomy a c with hac | hac | hac
    · have hbl : Memory.read m a = Memory.blank w := Memory.read_below h.2 (by omega)
      have hne : a ≠ c := by omega
      by_cases hx : x = Memory.blank w
      · by_cases hb : b = a
        · subst hb; simp [Memory.write, Memory.read, hac, hx, hbl, hne]
        · simp [Memory.write, hac, hx, hb]
      · simp [Memory.write, Memory.read, hac, hx]
    · subst hac
      have hbl : Memory.read m a = Memory.blank w := Memory.read_below h.2 (by omega)
      by_cases hx : x = Memory.blank w
      · by_cases hb : b = a
        · subst hb; simp [Memory.write, hx, hbl]
        · simp [Memory.write, Memory.read, hx, hb]
      · by_cases hb : b = a <;> simp [Memory.write, Memory.read, hx, hb]
    · have h1 : ¬ a < c := by omega
      have h2 : a ≠ c := by omega
      simp only [Memory.write, if_neg h1, if_neg h2, Memory.read, ih h.2]
      by_cases hb : b = c
      · subst hb; simp [h2.symm]
      · simp [hb]

theorem Memory.wfFrom_write {m : Memory w} {k a : Nat} (h : Memory.wfFrom k m = true) (hk : k ≤ a) (x : BitVec w) :
    Memory.wfFrom k (Memory.write m a x) = true := by
  induction m generalizing k with
  | nil => by_cases hx : x = Memory.blank w <;> simp [Memory.write, Memory.wfFrom, hx, hk]
  | cons cell m ih =>
    obtain ⟨c, y⟩ := cell
    have h0 := h
    simp only [Memory.wfFrom, Bool.and_eq_true, decide_eq_true_eq] at h
    rcases Nat.lt_trichotomy a c with hac | hac | hac
    · by_cases hx : x = Memory.blank w
      · simp only [Memory.write, hac, hx, if_true]; exact h0
      · simp [Memory.write, Memory.wfFrom, hac, hx, hk, h.1.2, h.2]
    · subst hac
      by_cases hx : x = Memory.blank w
      · simp only [Memory.write, Nat.lt_irrefl, hx, if_true, if_false]
        exact Memory.wfFrom_mono h.2 (by omega)
      · simp [Memory.write, Memory.wfFrom, hx, hk, h.2]
    · have h1 : ¬ a < c := by omega
      have h2 : a ≠ c := by omega
      simp only [Memory.write, if_neg h1, if_neg h2, Memory.wfFrom, Bool.and_eq_true, decide_eq_true_eq]
      exact ⟨h.1, ih h.2 (by omega)⟩

/-- A write keeps the canonical form. -/
theorem Memory.wf_write {m : Memory w} (h : Memory.wf m = true) (a : Nat) (x : BitVec w) :
    Memory.wf (Memory.write m a x) = true :=
  Memory.wfFrom_write h (Nat.zero_le a) x

theorem Memory.wfFrom_ofListFrom (xs : List (BitVec w)) (a : Nat) :
    Memory.wfFrom a (Memory.ofListFrom a xs) = true := by
  induction xs generalizing a with
  | nil => rfl
  | cons x xs ih =>
    by_cases hx : x = Memory.blank w
    · simpa [Memory.ofListFrom, hx] using Memory.wfFrom_mono (ih (a + 1)) (by omega)
    · simp [Memory.ofListFrom, Memory.wfFrom, hx, ih]

/-- A memory made of a list of cells is canonical. -/
theorem Memory.wf_ofList (xs : List (BitVec w)) : Memory.wf (Memory.ofList xs) = true :=
  Memory.wfFrom_ofListFrom xs 0

theorem Memory.read_ofListFrom (xs : List (BitVec w)) (a j : Nat) :
    Memory.read (Memory.ofListFrom a xs) (a + j) = xs.getD j (Memory.blank w) := by
  induction xs generalizing a j with
  | nil => simp [Memory.ofListFrom]
  | cons x xs ih =>
    cases j with
    | zero =>
      by_cases hx : x = Memory.blank w
      · simp [Memory.ofListFrom, hx, Memory.read_below (Memory.wfFrom_ofListFrom xs (a + 1))]
      · simp [Memory.ofListFrom, hx, Memory.read]
    | succ j =>
      have h1 := ih (a + 1) j
      rw [show a + 1 + j = a + (j + 1) by omega] at h1
      by_cases hx : x = Memory.blank w
      · simpa [Memory.ofListFrom, hx] using h1
      · simpa [Memory.ofListFrom, hx, Memory.read] using h1

/-- Cell `j` of a memory made of a list is the list's `j`-th element, blank past its end. -/
theorem Memory.read_ofList (xs : List (BitVec w)) (j : Nat) :
    Memory.read (Memory.ofList xs) j = xs.getD j (Memory.blank w) := by
  simpa [Memory.ofList] using Memory.read_ofListFrom xs 0 j

@[simp] theorem Memory.length_readList (m : Memory w) (a n : Nat) : (Memory.readList m a n).length = n := by
  induction n generalizing a with
  | zero => rfl
  | succ n ih => simp [Memory.readList, ih]

/-- A run of cells is each cell in ascending order. -/
theorem Memory.readList_eq_map (m : Memory w) (a n : Nat) :
    Memory.readList m a n = (List.range n).map (fun j => Memory.read m (a + j)) := by
  induction n generalizing a with
  | zero => rfl
  | succ n ih =>
    rw [Memory.readList, ih, List.range_succ_eq_map, List.map_cons, List.map_map]
    refine congrArg₂ List.cons (by simp) (List.map_congr_left ?_)
    intro j _
    simp [Nat.add_assoc, Nat.add_comm 1 j]

/-- A run of cells depends on those cells only. -/
theorem Memory.readList_congr {m m' : Memory w} {a n : Nat}
    (h : ∀ j, j < n → Memory.read m (a + j) = Memory.read m' (a + j)) :
    Memory.readList m a n = Memory.readList m' a n := by
  rw [Memory.readList_eq_map, Memory.readList_eq_map]
  exact List.map_congr_left fun j hj => h j (by simpa using hj)

end Sys2Proof
end

