-- ==== Sys2Proof/Laws/State.lean ====
section
/-! SUPPORT. One lemma per field per update of the state and of the working state, true by `rfl`. -/

namespace Sys2Proof.Machine

@[simp] theorem State.finish_build (s : State) (r : Response) : (s.finish r).build = s.build := rfl
@[simp] theorem State.finish_block (s : State) (r : Response) : (s.finish r).block = s.block := rfl
@[simp] theorem State.finish_txn (s : State) (r : Response) : (s.finish r).txn = none := rfl
@[simp] theorem State.finish_requests (s : State) (r : Response) : (s.finish r).requests = s.requests := rfl
@[simp] theorem State.finish_responses (s : State) (r : Response) :
    (s.finish r).responses = s.responses ++ [r] := rfl

@[simp] theorem State.takeRequest_build (s : State) : s.takeRequest.build = s.build := rfl
@[simp] theorem State.takeRequest_block (s : State) : s.takeRequest.block = s.block := rfl
@[simp] theorem State.takeRequest_txn (s : State) : s.takeRequest.txn = s.txn := rfl
@[simp] theorem State.takeRequest_requests (s : State) : s.takeRequest.requests = s.requests.tail := rfl
@[simp] theorem State.takeRequest_responses (s : State) : s.takeRequest.responses = s.responses := rfl

@[simp] theorem State.answer_build (s : State) (r : Response) : (s.answer r).build = s.build := rfl
@[simp] theorem State.answer_block (s : State) (r : Response) : (s.answer r).block = s.block := rfl
@[simp] theorem State.answer_txn (s : State) (r : Response) : (s.answer r).txn = none := rfl
@[simp] theorem State.answer_requests (s : State) (r : Response) : (s.answer r).requests = s.requests.tail := rfl
@[simp] theorem State.answer_responses (s : State) (r : Response) :
    (s.answer r).responses = s.responses ++ [r] := rfl

@[simp] theorem State.withTxn_build (s : State) (t : Txn) : (s.withTxn t).build = s.build := rfl
@[simp] theorem State.withTxn_block (s : State) (t : Txn) : (s.withTxn t).block = s.block := rfl
@[simp] theorem State.withTxn_txn (s : State) (t : Txn) : (s.withTxn t).txn = some t := rfl
@[simp] theorem State.withTxn_requests (s : State) (t : Txn) : (s.withTxn t).requests = s.requests := rfl
@[simp] theorem State.withTxn_responses (s : State) (t : Txn) : (s.withTxn t).responses = s.responses := rfl

@[simp] theorem State.submit_build (s : State) (r : Request) : (s.submit r).build = s.build := rfl
@[simp] theorem State.submit_block (s : State) (r : Request) : (s.submit r).block = s.block := rfl
@[simp] theorem State.submit_txn (s : State) (r : Request) : (s.submit r).txn = s.txn := rfl
@[simp] theorem State.submit_requests (s : State) (r : Request) :
    (s.submit r).requests = s.requests ++ [r] := rfl
@[simp] theorem State.submit_responses (s : State) (r : Request) : (s.submit r).responses = s.responses := rfl

@[simp] theorem State.applyReset_build (s : State) : s.applyReset.build = s.build := rfl
@[simp] theorem State.applyReset_block (s : State) : s.applyReset.block = s.block := rfl
@[simp] theorem State.applyReset_txn (s : State) : s.applyReset.txn = none := rfl
@[simp] theorem State.applyReset_requests (s : State) : s.applyReset.requests = s.requests := rfl
@[simp] theorem State.applyReset_responses (s : State) : s.applyReset.responses = s.responses := rfl

@[simp] theorem Txn.start_ver (v : Version) (r : Request) : (Txn.start v r).ver = v := rfl
@[simp] theorem Txn.start_buf (v : Version) (r : Request) : (Txn.start v r).buf = r.buf := rfl
@[simp] theorem Txn.start_len (v : Version) (r : Request) : (Txn.start v r).len = r.len := rfl
@[simp] theorem Txn.start_i (v : Version) (r : Request) : (Txn.start v r).i = 0 := rfl
@[simp] theorem Txn.start_c (v : Version) (r : Request) : (Txn.start v r).c = 0 := rfl
@[simp] theorem Txn.start_k (v : Version) (r : Request) : (Txn.start v r).k = 0 := rfl
@[simp] theorem Txn.start_record (v : Version) (r : Request) : (Txn.start v r).record = [] := rfl

@[simp] theorem Txn.emit_ver (t : Txn) (v : Value) : (t.emit v).ver = t.ver := rfl
@[simp] theorem Txn.emit_buf (t : Txn) (v : Value) : (t.emit v).buf = t.buf := rfl
@[simp] theorem Txn.emit_len (t : Txn) (v : Value) : (t.emit v).len = t.len := rfl
@[simp] theorem Txn.emit_i (t : Txn) (v : Value) : (t.emit v).i = t.i := rfl
@[simp] theorem Txn.emit_c (t : Txn) (v : Value) : (t.emit v).c = t.c := rfl
@[simp] theorem Txn.emit_k (t : Txn) (v : Value) : (t.emit v).k = t.k + 1 := rfl
@[simp] theorem Txn.emit_record (t : Txn) (v : Value) : (t.emit v).record = t.record ++ [v] := rfl

@[simp] theorem Txn.advance_ver (t : Txn) (w : Nat) : (t.advance w).ver = t.ver := rfl
@[simp] theorem Txn.advance_buf (t : Txn) (w : Nat) : (t.advance w).buf = t.buf := rfl
@[simp] theorem Txn.advance_len (t : Txn) (w : Nat) : (t.advance w).len = t.len := rfl
@[simp] theorem Txn.advance_i (t : Txn) (w : Nat) : (t.advance w).i = t.i + 1 := rfl
@[simp] theorem Txn.advance_c (t : Txn) (w : Nat) : (t.advance w).c = t.c + w := rfl
@[simp] theorem Txn.advance_k (t : Txn) (w : Nat) : (t.advance w).k = t.k := rfl
@[simp] theorem Txn.advance_record (t : Txn) (w : Nat) : (t.advance w).record = t.record := rfl

end Sys2Proof.Machine
end

