-- ==== Sys2Proof/Laws/Ops.lean ====
section
/-! SUPPORT. One lemma per shared operation: what a buffer read, a field's value, one descriptor step and one request
can do. Later proofs cite these and unfold none of the operations. -/

namespace Sys2Proof.Machine

/-! ### Reads and values -/

theorem Txn.memRead_eq {t : Txn} {a : Nat} (h : a < t.len) : t.memRead a = .ok (Memory.read t.buf a) := by
  simp [Txn.memRead, h]

theorem Txn.memReadList_eq {t : Txn} {a n : Nat} (h : a + n ≤ t.len) :
    t.memReadList a n = .ok (Memory.readList t.buf a n) := by
  induction n generalizing a with
  | zero => rfl
  | succ n ih =>
    rw [Txn.memReadList, Txn.memRead_eq (by omega), ih (by omega)]
    rfl

theorem Txn.strValue_eq {t : Txn} {n : Nat} (h : t.c + 8 * n ≤ 8 * t.len) :
    t.strValue n = .ok (.str (Memory.readList t.buf (t.c / 8) n)) := by
  rw [Txn.strValue, byteAddr, Txn.memReadList_eq (by omega)]

theorem Txn.u8Value_eq {t : Txn} (h : t.c + 8 ≤ 8 * t.len) :
    t.u8Value = .ok (.uns 8 (Memory.read t.buf (t.c / 8)).toNat) := by
  rw [Txn.u8Value, byteAddr, Txn.memRead_eq (by omega)]

theorem Txn.u16Value_eq {t : Txn} (order : Byte → Byte → Nat) (h : t.c + 16 ≤ 8 * t.len) :
    t.u16Value order =
      .ok (.uns 16 (order (Memory.read t.buf (t.c / 8)) (Memory.read t.buf (t.c / 8 + 1)))) := by
  rw [Txn.u16Value, byteAddr, Txn.memRead_eq (by omega), Txn.memRead_eq (by omega)]

theorem Txn.bitsValue_eq {t : Txn} {n : Nat} (hn : 1 ≤ n) (h : t.c + n ≤ 8 * t.len) :
    t.bitsValue n = .ok (.uns n (bitField (Memory.read t.buf (t.c / 8)) (t.c % 8) n)) := by
  rw [Txn.bitsValue, byteAddr, bitPos, Txn.memRead_eq (by omega)]

/-! ### One descriptor -/

/-- What `Exec` of a descriptor does to the working state, its advance included, when the descriptor fits. -/
def Txn.after (t : Txn) (e : Instr) : Txn :=
  { t with
    i := t.i + 1, c := t.c + e.width
    k := if e.isOutput then t.k + 1 else t.k
    record := t.record ++ (fieldValue e t.buf t.c).toList }

@[simp] theorem Txn.after_ver (t : Txn) (e : Instr) : (t.after e).ver = t.ver := rfl
@[simp] theorem Txn.after_buf (t : Txn) (e : Instr) : (t.after e).buf = t.buf := rfl
@[simp] theorem Txn.after_len (t : Txn) (e : Instr) : (t.after e).len = t.len := rfl
@[simp] theorem Txn.after_i (t : Txn) (e : Instr) : (t.after e).i = t.i + 1 := rfl
@[simp] theorem Txn.after_c (t : Txn) (e : Instr) : (t.after e).c = t.c + e.width := rfl
@[simp] theorem Txn.after_k (t : Txn) (e : Instr) :
    (t.after e).k = if e.isOutput then t.k + 1 else t.k := rfl
@[simp] theorem Txn.after_record (t : Txn) (e : Instr) :
    (t.after e).record = t.record ++ (fieldValue e t.buf t.c).toList := rfl

theorem runDescriptor_fits {e : Instr} {f : Txn → Except Fault Txn} {s : State} {t t' : Txn} (ht : s.txn = some t)
    (hd : e.defect t.c = none) (hk : e.isOutput = true → t.k < s.build.maxFields)
    (hf : t.c + e.width ≤ 8 * t.len) (hx : f t = .ok t') :
    runDescriptor e f s = .next (s.withTxn (t'.advance e.width)) := by
  have hg : (e.isOutput && decide (s.build.maxFields ≤ t.k)) = false := by
    cases ho : e.isOutput with
    | false => rfl
    | true => have := hk ho; simp; omega
  simp [runDescriptor, ht, hd, hg, Txn.fits, hf, hx]

theorem runDescriptor_misfits {e : Instr} {f : Txn → Except Fault Txn} {s : State} {t : Txn} (ht : s.txn = some t)
    (hd : e.defect t.c = none) (hk : e.isOutput = true → t.k < s.build.maxFields)
    (hf : 8 * t.len < t.c + e.width) : runDescriptor e f s = .next (s.finish t.truncation) := by
  have hg : (e.isOutput && decide (s.build.maxFields ≤ t.k)) = false := by
    cases ho : e.isOutput with
    | false => rfl
    | true => have := hk ho; simp; omega
  have hnf : ¬ t.c + e.width ≤ 8 * t.len := by omega
  simp [runDescriptor, ht, hd, hg, Txn.fits, hnf]

theorem runDescriptor_defect {e : Instr} {f : Txn → Except Fault Txn} {s : State} {t : Txn} {k : WfCheck}
    (ht : s.txn = some t) (hd : e.defect t.c = some k) :
    runDescriptor e f s = .refused (.outsideWalk t.ver k t.i) := by
  simp [runDescriptor, ht, hd]

/-- Everything a descriptor step can answer: a refusal, the truncation of the transaction, or `f`'s working state
advanced; a fault only if `f` faults on a descriptor that fits. -/
theorem runDescriptor_cases (e : Instr) (f : Txn → Except Fault Txn) (s : State) :
    (∃ r, runDescriptor e f s = .refused r) ∨
    ∃ t, s.txn = some t ∧ e.defect t.c = none ∧ (e.isOutput = true → t.k < s.build.maxFields) ∧
      ((8 * t.len < t.c + e.width ∧ runDescriptor e f s = .next (s.finish t.truncation)) ∨
        (t.c + e.width ≤ 8 * t.len ∧
          ((∃ x, f t = .error x ∧ runDescriptor e f s = .fault x) ∨
            ∃ t', f t = .ok t' ∧ runDescriptor e f s = .next (s.withTxn (t'.advance e.width))))) := by
  cases ht : s.txn with
  | none => exact .inl ⟨_, by simp [runDescriptor, ht]; rfl⟩
  | some t =>
    cases hd : e.defect t.c with
    | some k => exact .inl ⟨_, runDescriptor_defect ht hd⟩
    | none =>
      by_cases hg : e.isOutput = true → t.k < s.build.maxFields
      · refine .inr ⟨t, rfl, hd, hg, ?_⟩
        by_cases hf : t.c + e.width ≤ 8 * t.len
        · refine .inr ⟨hf, ?_⟩
          cases hx : f t with
          | ok t' => exact .inr ⟨t', rfl, runDescriptor_fits ht hd hg hf hx⟩
          | error x =>
            refine .inl ⟨x, rfl, ?_⟩
            have hg' : (e.isOutput && decide (s.build.maxFields ≤ t.k)) = false := by
              cases ho : e.isOutput with
              | false => rfl
              | true => have := hg ho; simp; omega
            simp [runDescriptor, ht, hd, hg', Txn.fits, hf, hx]
        · exact .inl ⟨by omega, runDescriptor_misfits ht hd hg (by omega)⟩
      · refine .inl ⟨.outsideWalk t.ver .wf7 t.i, ?_⟩
        simp only [Classical.not_imp, Nat.not_lt] at hg
        simp [runDescriptor, ht, hd, hg.1, hg.2]

theorem emitting_eq {f : Txn → Except Fault Value} {t : Txn} {v : Value} (h : f t = .ok v) :
    emitting f t = .ok (t.emit v) := by
  simp [emitting, h]

/-- What a defect-free descriptor is: a well-formed one that stands where it may. -/
theorem Instr.wf_of_defect {e : Instr} {c : Nat} (h : e.defect c = none) : e.wf = true := by
  by_contra hw
  unfold Instr.defect at h
  rw [if_pos (by simpa using hw)] at h
  cases h

/-- A descriptor that fits runs: its value is emitted, the cursor and the entry index advance, and nothing else
changes. -/
theorem exec_fits {e : Instr} {s : State} {t : Txn} (he : e.inWalk = true) (ht : s.txn = some t)
    (hd : e.defect t.c = none) (hk : e.isOutput = true → t.k < s.build.maxFields)
    (hf : t.c + e.width ≤ 8 * t.len) : exec e s = .next (s.withTxn (t.after e)) := by
  have hw := Instr.wf_of_defect hd
  cases e with
  | endTable => simp [Instr.inWalk] at he
  | decode => simp [Instr.inWalk] at he
  | tableRead => simp [Instr.inWalk] at he
  | str n => exact runDescriptor_fits ht hd hk hf (emitting_eq (Txn.strValue_eq hf))
  | u8 => exact runDescriptor_fits ht hd hk hf (emitting_eq (Txn.u8Value_eq hf))
  | u16le => exact runDescriptor_fits ht hd hk hf (emitting_eq (Txn.u16Value_eq _ hf))
  | u16be => exact runDescriptor_fits ht hd hk hf (emitting_eq (Txn.u16Value_eq _ hf))
  | bits n =>
    simp only [Instr.wf, Bool.and_eq_true, decide_eq_true_eq] at hw
    exact runDescriptor_fits ht hd hk hf (emitting_eq (Txn.bitsValue_eq hw.1 hf))
  | skip n =>
    rw [show exec (.skip n) s = runDescriptor (.skip n) silent s from rfl, runDescriptor_fits (f := silent) ht hd hk hf rfl]
    simp [Txn.advance, Txn.after, Instr.isOutput, fieldValue]
  | pad n =>
    rw [show exec (.pad n) s = runDescriptor (.pad n) silent s from rfl, runDescriptor_fits (f := silent) ht hd hk hf rfl]
    simp [Txn.advance, Txn.after, Instr.isOutput, fieldValue]

/-- A descriptor that does not fit ends the transaction with TruncatedInput (R86). -/
theorem exec_misfits {e : Instr} {s : State} {t : Txn} (he : e.inWalk = true) (ht : s.txn = some t)
    (hd : e.defect t.c = none) (hk : e.isOutput = true → t.k < s.build.maxFields)
    (hf : 8 * t.len < t.c + e.width) : exec e s = .next (s.finish t.truncation) := by
  cases e with
  | endTable => simp [Instr.inWalk] at he
  | decode => simp [Instr.inWalk] at he
  | tableRead => simp [Instr.inWalk] at he
  | str n => exact runDescriptor_misfits ht hd hk hf
  | u8 => exact runDescriptor_misfits ht hd hk hf
  | u16le => exact runDescriptor_misfits ht hd hk hf
  | u16be => exact runDescriptor_misfits ht hd hk hf
  | bits n => exact runDescriptor_misfits ht hd hk hf
  | skip n => exact runDescriptor_misfits (f := silent) ht hd hk hf
  | pad n => exact runDescriptor_misfits (f := silent) ht hd hk hf

/-- A descriptor out of its place is refused by the check's name (R83). -/
theorem exec_defect {e : Instr} {s : State} {t : Txn} {k : WfCheck} (he : e.isDescriptor = true) (ht : s.txn = some t)
    (hd : e.defect t.c = some k) : exec e s = .refused (.outsideWalk t.ver k t.i) := by
  cases e with
  | decode => simp [Instr.isDescriptor] at he
  | tableRead => simp [Instr.isDescriptor] at he
  | endTable => simp [exec, execEnd, ht, hd]
  | str n => exact runDescriptor_defect ht hd
  | u8 => exact runDescriptor_defect ht hd
  | u16le => exact runDescriptor_defect ht hd
  | u16be => exact runDescriptor_defect ht hd
  | bits n => exact runDescriptor_defect ht hd
  | skip n => exact runDescriptor_defect (f := silent) ht hd
  | pad n => exact runDescriptor_defect (f := silent) ht hd

/-- END answers OK with the record (R88). -/
theorem exec_end {s : State} {t : Txn} (ht : s.txn = some t) (hc : t.c % 8 = 0) :
    exec .endTable s = .next (s.finish (.okDecode t.record t.k)) := by
  simp [exec, execEnd, ht, Instr.defect, Instr.wf, hc]

/-! ### Requests -/

theorem onRequest_eq {s : State} {r : Request} {rs : List Request} (ht : s.txn = none) (hr : s.requests = r :: rs)
    (f : Request → Result) : onRequest f s = f r := by
  simp [onRequest, ht, hr]

/-! ### Placing a word -/

/-- The words of one kind and count that are descriptors make a block (a finite question: eight kinds, 256 counts). -/
theorem loadedBuild_refusal_fields :
    ∀ op < 8, ∀ n < 256, (decodeDesc (BitVec.ofNat 16 (4096 * op + n))).toOption.isSome = true →
      (loadedBuild (BitVec.ofNat 16 (4096 * op + n))).refusal = none := by decide +kernel

/-- Around every descriptor word a block can be built. -/
theorem loadedBuild_wf {w : Word} {e : Instr} (h : decodeDesc w = .ok e) : (loadedBuild w).wf = true := by
  obtain ⟨ho, hr, -, -⟩ := decodeDesc_eq_ok h
  have hn : countField w < 256 := Nat.mod_lt _ (by decide)
  have hw : BitVec.ofNat 16 (4096 * opField w + countField w) = w := by
    have := word_eq_fields w
    exact BitVec.eq_of_toNat_eq (by simp; omega)
  have := loadedBuild_refusal_fields _ ho _ hn
  rw [hw, h] at this
  exact Build.wf_iff_refusal.mpr (this rfl)

theorem State.withBlockOf_eq {w : Word} {e : Instr} (h : decodeDesc w = .ok e) (s : State) (t : Option Txn)
    (rs : List Request) :
    s.withBlockOf w t rs = { s with block := ⟨loadedBuild w, loadedBuild_wf h⟩, txn := t, requests := rs } := by
  simp [State.withBlockOf, Build.construct_of_wf (loadedBuild_wf h)]

/-- The first entry of a placed block is the placed word. -/
theorem read_loadedBuild (w : Word) : Memory.read (loadedBuild w).tableA 0 = w := by
  rw [loadedBuild, Memory.read_ofList, loadedLayout]
  split <;> rfl

/-! ### One step -/

theorem step_walk {s : State} {t : Txn} (ht : s.txn = some t) : step s = stepWalk s t := by
  simp [step, runStep, ht]

theorem step_request {s : State} {r : Request} {rs : List Request} (ht : s.txn = none) (hr : s.requests = r :: rs) :
    step s = stepRequest s r := by
  simp [step, runStep, ht, hr]

theorem step_idle {s : State} (ht : s.txn = none) (hr : s.requests = []) : step s = .next s := by
  simp [step, runStep, ht, hr]

/-! ### Records and misfits -/

theorem isSome_fieldValue (e : Instr) (buf : Buffer) (c : Nat) : (fieldValue e buf c).isSome = e.isOutput := by
  cases e <;> rfl

theorem length_toList_fieldValue (e : Instr) (buf : Buffer) (c : Nat) :
    (fieldValue e buf c).toList.length = if e.isOutput then 1 else 0 := by
  cases e <;> rfl

theorem recordFrom_append (buf : Buffer) (c : Nat) (es fs : List Instr) :
    recordFrom buf c (es ++ fs) = recordFrom buf c es ++ recordFrom buf (cursorAfter c es) fs := by
  induction es generalizing c with
  | nil => rfl
  | cons e es ih => simp [recordFrom, ih]

theorem recordFrom_take_succ (buf : Buffer) (c : Nat) (es : List Instr) {i : Nat} (hi : i < es.length) :
    recordFrom buf c (es.take (i + 1)) =
      recordFrom buf c (es.take i) ++ (fieldValue es[i] buf (cursorAfter c (es.take i))).toList := by
  rw [List.take_succ_eq_append_getElem hi, recordFrom_append]
  simp [recordFrom]

/-- A record holds one value per output descriptor (R27). -/
theorem length_recordFrom (buf : Buffer) (c : Nat) (es : List Instr) :
    (recordFrom buf c es).length = outputCount es := by
  induction es generalizing c with
  | nil => rfl
  | cons e es ih => simp [recordFrom, ih, length_toList_fieldValue, outputCount_cons]

/-- Every descriptor fits exactly when the last one does (R87). -/
theorem firstMisfit_eq_none {len i c k : Nat} {es : List Instr} (hc : c ≤ 8 * len) :
    firstMisfit len i c k es = none ↔ cursorAfter c es ≤ 8 * len := by
  induction es generalizing i c k with
  | nil => simpa [firstMisfit] using hc
  | cons e es ih =>
    rw [firstMisfit, cursorAfter_cons]
    split
    · have := le_cursorAfter (c + e.width) es
      simp; omega
    · exact ih (by omega)

/-- The misfit of a walk that has passed its first `j` descriptors is the misfit of the walk from there. -/
theorem firstMisfit_drop (len i c k : Nat) (es : List Instr) (j : Nat) (hj : cursorAfter c (es.take j) ≤ 8 * len) :
    firstMisfit len i c k es =
      firstMisfit len (i + (es.take j).length) (cursorAfter c (es.take j)) (k + outputCount (es.take j))
        (es.drop j) := by
  induction es generalizing i c k j with
  | nil => simp [firstMisfit]
  | cons e es ih =>
    cases j with
    | zero => simp
    | succ j =>
      have hle : c + e.width ≤ 8 * len :=
        Nat.le_trans (le_cursorAfter _ _) (by simpa using hj)
      rw [firstMisfit, if_neg (by omega), ih _ _ _ j (by simpa using hj)]
      simp only [List.take_succ_cons, List.length_cons, cursorAfter_cons, List.drop_succ_cons, outputCount_cons]
      congr 1
      · omega
      · split <;> omega

end Sys2Proof.Machine
end

