-- ==== Sys2Proof/Laws/PerInstr.lean ====
section
/-! SUPPORT. Statements made per instruction. Family `Width`: how wide a descriptor can be (R63, R64). -/

namespace Sys2Proof.Laws.Width

/-- A well-formed instruction is at most 255 bytes wide, and every descriptor but END has a width of its own, so the walk
always moves (R64, R93). -/
def Statement (i : Instr) : Prop :=
  i.wf = true → i.width ≤ 2040 ∧ (i.isDescriptor = true → i ≠ .endTable → 0 < i.width)

theorem endTable : Statement .endTable := by simp [Statement, Instr.width]

theorem str (n : Nat) : Statement (.str n) := by
  simp only [Statement, Instr.wf, Bool.and_eq_true, decide_eq_true_eq, Instr.width]; omega

theorem u8 : Statement .u8 := by simp [Statement, Instr.width]

theorem u16le : Statement .u16le := by simp [Statement, Instr.width]

theorem u16be : Statement .u16be := by simp [Statement, Instr.width]

theorem bits (n : Nat) : Statement (.bits n) := by
  simp only [Statement, Instr.wf, Bool.and_eq_true, decide_eq_true_eq, Instr.width]; omega

theorem skip (n : Nat) : Statement (.skip n) := by
  simp only [Statement, Instr.wf, Bool.and_eq_true, decide_eq_true_eq, Instr.width]; omega

theorem pad (n : Nat) : Statement (.pad n) := by
  simp only [Statement, Instr.wf, Bool.and_eq_true, decide_eq_true_eq, Instr.width]; omega

theorem decode : Statement .decode := by simp [Statement, Instr.isDescriptor, Instr.width]

theorem tableRead : Statement .tableRead := by simp [Statement, Instr.isDescriptor, Instr.width]

end Sys2Proof.Laws.Width
end

