-- ==== Sys2Proof/Laws/Walk.lean ====
section
/-! SUPPORT. The step in a good state: the inversion lemmas of the walk and of the requests, and of a run of steps. Proofs
about invariants, progress and whole transactions start from these. -/

namespace Sys2Proof.Machine

/-! ### Runs -/

/-- A run that starts with a step to `s'` is the rest of the run from `s'`. -/
theorem run_succ {n : Nat} {s s' : State} (h : step s = .next s') :
    Host.Core.run Sys2Proof.core (n + 1) s = Host.Core.run Sys2Proof.core n s' := by
  have h' : Sys2Proof.core.step s = .next s' := h
  simp only [Host.Core.run, h']

theorem run_zero (s : State) : Host.Core.run Sys2Proof.core 0 s = .next s := rfl

/-- The memories of the reset state, its two tables, are in canonical form. -/
theorem reset_memory_wf (v : Version) : Memory.wf (State.reset.build.table v) = true := by
  have h := (Build.wf_iff.mp State.reset.block.ok v).2
  simp only [Table.fitsRom, Bool.and_eq_true] at h
  exact h.1

/-- Both tables of a state's block are good: the block could be built (R163). -/
theorem State.tableGood (s : State) (v : Version) :
    (s.build.table v).Good s.build.maxLen s.build.maxEntries s.build.maxFields :=
  s.block.good v

/-! ### The walk -/

/-- A word that decodes to a descriptor other than END decodes to one that the walk runs through `Exec`. -/
theorem decodeDesc_inWalk {w : Word} {e : Instr} (h : decodeDesc w = .ok e) (hne : e ≠ .endTable) : e.inWalk = true := by
  have := decodeDesc_isDescriptor h
  cases e <;> simp_all [Instr.isDescriptor, Instr.inWalk]

/-- What a step finds at an entry before END: the descriptor, in a place it may stand and with a slot for its value. -/
structure AtEntry (s : State) (t : Txn) (i : Nat) (hi : i < (s.build.program t.ver).length) : Prop where
  step : step s = exec (s.build.program t.ver)[i] s
  walk : ((s.build.program t.ver)[i]).inWalk = true
  ok : ((s.build.program t.ver)[i]).defect t.c = none
  slot : ((s.build.program t.ver)[i]).isOutput = true → t.k < s.build.maxFields

theorem atEntry_of_inv {s : State} {t : Txn} (hI : s.Inv) (ht : s.txn = some t) (hi : t.i < (s.build.program t.ver).length) :
    AtEntry s t t.i hi := by
  obtain ⟨-, hg, -⟩ := hI
  obtain ⟨g1, g2, g3, g4, g5, g6, g7⟩ := hg t ht
  have G := s.tableGood t.ver
  have hw := G.word t.i hi
  refine ⟨?_, decodeDesc_inWalk hw (G.notEnd _ (List.getElem_mem hi)), ?_, ?_⟩
  · rw [step_walk ht, stepWalk, if_neg (by have := G.ends; change t.i < ((s.build.table t.ver).program s.build.maxEntries).length at hi; omega), State.fetchWord, hw]; rfl
  · rw [g4]; exact G.placed t.i hi
  · intro ho
    have h1 := outputCount_take_succ (s.build.program t.ver) hi
    have h2 := outputCount_take_le (s.build.program t.ver) (t.i+1)
    have h3 := G.records
    simp only [ho, if_true] at h1
    change outputCount (s.build.program t.ver) ≤ _ at h3
    omega

/-- At the table's END the walk answers OK with the record. -/
theorem step_at_end {s : State} {t : Txn} (hI : s.Inv) (ht : s.txn = some t) (hi : t.i = (s.build.program t.ver).length) :
    step s = .next (s.finish (.okDecode t.record t.k)) := by
  obtain ⟨-, hg, -⟩ := hI
  obtain ⟨g1, g2, g3, g4, g5, g6, g7⟩ := hg t ht
  have G := s.tableGood t.ver
  have hc : t.c % 8 = 0 := by rw [g4, hi, List.take_length]; exact G.aligned
  rw [step_walk ht, stepWalk, if_neg (by rw [hi]; have := G.ends; change (s.build.program t.ver).length < _ at this; omega), State.fetchWord, hi]
  have : Memory.read (s.build.table t.ver) (s.build.program t.ver).length = 0x0000#16 := G.endWord
  rw [this, decodeDesc_zero]
  exact exec_end ht hc

/-- Passing a descriptor that fits keeps the working state good. -/
theorem after_good {s : State} {t : Txn} (hI : s.Inv) (ht : s.txn = some t) (hi : t.i < (s.build.program t.ver).length)
    (hf : t.c + (s.build.program t.ver)[t.i].width ≤ 8 * t.len) : (t.after (s.build.program t.ver)[t.i]).good s.build := by
  obtain ⟨-, hg, -⟩ := hI
  obtain ⟨g1, g2, g3, g4, g5, g6, g7⟩ := hg t ht
  refine ⟨g1, g2, hi, ?_, hf, ?_, ?_⟩
  · simp only [Txn.after_c, Txn.after_ver, Txn.after_i]; rw [cursorAfter_take_succ _ _ hi, ← g4]
  · simp only [Txn.after_record, Txn.after_ver, Txn.after_i, Txn.after_buf]; rw [recordFrom_take_succ _ _ _ hi, ← g4, ← g6]
  · simp only [Txn.after_k, Txn.after_ver, Txn.after_i]; rw [outputCount_take_succ _ hi, ← g7]; split <;> rfl

/-- Everything a step of a walk can do in a good state: answer OK at END, answer TruncatedInput at the first descriptor
that does not fit, or pass one descriptor, to a good working state. -/
theorem walk_cases {s : State} {t : Txn} (hI : s.Inv) (ht : s.txn = some t) :
   (t.i = (s.build.program t.ver).length ∧ step s = .next (s.finish (.okDecode t.record t.k))) ∨
   ∃ hi : t.i < (s.build.program t.ver).length,
     (8 * t.len < t.c + (s.build.program t.ver)[t.i].width ∧ step s = .next (s.finish t.truncation)) ∨
     (t.c + (s.build.program t.ver)[t.i].width ≤ 8 * t.len ∧ step s = .next (s.withTxn (t.after (s.build.program t.ver)[t.i])) ∧ (t.after (s.build.program t.ver)[t.i]).good s.build) := by
  have hle := (hI.2.1 t ht).2.2.1
  rcases Nat.lt_or_eq_of_le hle with hi | hi
  · refine .inr ⟨hi, ?_⟩
    have A := atEntry_of_inv hI ht hi
    by_cases hf : t.c + (s.build.program t.ver)[t.i].width ≤ 8 * t.len
    · exact .inr ⟨hf, by rw [A.step, exec_fits A.walk ht A.ok A.slot hf], after_good hI ht hi hf⟩
    · exact .inl ⟨by omega, by rw [A.step, exec_misfits A.walk ht A.ok A.slot (by omega)]⟩
  · exact .inl ⟨hi, step_at_end hI ht hi⟩

/-! ### Requests -/

/-- Everything a step can do with the oldest request of an idle block: answer it at once, as the transaction
function says, or start the walk. -/
theorem request_cases {s : State} {r : Request} {rs : List Request} (ht : s.txn = none)
    (hq : s.requests = r :: rs) :
    step s = .next (s.answer (transact s.build r)) ∨
      ∃ v, r.reqOp = 0b00#2 ∧ r.len ≤ s.build.maxLen ∧ Version.ofSelector r.ver = some v ∧
        step s = .next (s.takeRequest.withTxn (Txn.start v r)) := by
  by_cases h0 : r.reqOp = 0b00#2
  · have hst : step s = exec .decode s := by rw [step_request ht hq, stepRequest, h0]; rfl
    simp only [exec, execDecode, onRequest_eq ht hq, withVersion] at hst
    by_cases hl : s.build.maxLen < r.len
    · rw [if_pos hl] at hst
      exact .inl (by rw [hst]; simp [transact, h0, hl])
    · rw [if_neg hl] at hst
      cases hv : Version.ofSelector r.ver with
      | none => exact .inl (by rw [hst, hv]; simp [transact, h0, hl, hv])
      | some v => exact .inr ⟨v, h0, by omega, rfl, by rw [hst, hv]⟩
  · refine .inl ?_
    by_cases h1 : r.reqOp = 0b01#2
    · have hst : step s = exec .tableRead s := by rw [step_request ht hq, stepRequest, h1]; rfl
      simp only [exec, execTableRead, onRequest_eq ht hq, withVersion] at hst
      by_cases hl : s.build.maxEntries ≤ r.idx
      · rw [hst, if_pos hl]; simp [transact, h1, hl]
      · rw [if_neg hl] at hst
        cases hv : Version.ofSelector r.ver with
        | none => rw [hst, hv]; simp [transact, h1, hl, hv]
        | some v => rw [hst, hv]; simp [transact, h1, hl, hv]
    · rw [step_request ht hq, stepRequest, decodeReq, if_neg h0, if_neg h1]
      simp [transact, h0, h1]

/-! ### Every step -/

/-- Everything an instruction run in a walk can make of a state: the answered transaction, or another working state over
the same version, buffer and length. -/
theorem exec_next_cases {e : Instr} {s s' : State} {t : Txn} (h : exec e s = .next s') (ht : s.txn = some t) :
    (∃ x, s' = s.finish x) ∨
      ∃ t', s' = s.withTxn t' ∧ t'.ver = t.ver ∧ t'.buf = t.buf ∧ t'.len = t.len := by
  by_cases hw : e.inWalk = true
  · cases hd : e.defect t.c with
    | some k =>
      rw [exec_defect (by cases e <;> simp_all [Instr.inWalk, Instr.isDescriptor]) ht hd] at h
      cases h
    | none =>
      by_cases hk : e.isOutput = true → t.k < s.build.maxFields
      · by_cases hf : t.c + e.width ≤ 8 * t.len
        · rw [exec_fits hw ht hd hk hf] at h
          cases h
          exact .inr ⟨_, rfl, rfl, rfl, rfl⟩
        · rw [exec_misfits hw ht hd hk (by omega)] at h
          cases h
          exact .inl ⟨_, rfl⟩
      · simp only [Classical.not_imp, Nat.not_lt] at hk
        exfalso
        cases e <;> simp [Instr.isOutput] at hk <;>
          simp [exec, execStr, execU8, execU16le, execU16be, execBits, runDescriptor, ht, hd, Instr.isOutput, hk] at h
  · cases e <;> simp [Instr.inWalk] at hw
    · simp only [exec, execEnd, ht] at h
      split at h
      · cases h
      · cases h
        exact .inl ⟨_, rfl⟩
    · simp [exec, execDecode, onRequest, ht] at h
    · simp [exec, execTableRead, onRequest, ht] at h

/-- Everything a step that gives a next state can have done, from any state at all: nothing, a turn of the walk, or the
oldest request taken, and answered or its walk started. -/
theorem step_next_cases {s s' : State} (h : step s = .next s') :
    (s' = s ∧ s.txn = none ∧ s.requests = []) ∨
    (∃ t, s.txn = some t ∧ ((∃ x, s' = s.finish x) ∨
      ∃ t', s' = s.withTxn t' ∧ t'.ver = t.ver ∧ t'.buf = t.buf ∧ t'.len = t.len)) ∨
    (s.txn = none ∧ ∃ r rs, s.requests = r :: rs ∧
      ((∃ x, s' = s.answer x) ∨
        ∃ v, Version.ofSelector r.ver = some v ∧ s' = s.takeRequest.withTxn (Txn.start v r))) := by
  cases ht : s.txn with
  | some t =>
    refine .inr (.inl ⟨t, rfl, ?_⟩)
    rw [step_walk ht, stepWalk] at h
    split at h
    · cases h
    · split at h
      · cases h
      · exact exec_next_cases h ht
  | none =>
    cases hq : s.requests with
    | nil =>
      rw [step_idle ht hq] at h
      cases h
      exact .inl ⟨rfl, rfl, rfl⟩
    | cons r rs =>
      refine .inr (.inr ⟨rfl, r, rs, rfl, ?_⟩)
      rw [step_request ht hq, stepRequest] at h
      split at h
      · cases h
        exact .inl ⟨_, rfl⟩
      · rename_i e he
        simp only [decodeReq] at he
        split at he
        · cases he
          simp only [exec, execDecode, onRequest, ht, hq, withVersion] at h
          split at h
          · cases h; exact .inl ⟨_, rfl⟩
          · split at h
            · cases h; exact .inl ⟨_, rfl⟩
            · rename_i v hv
              cases h; exact .inr ⟨v, hv, rfl⟩
        · split at he
          · cases he
            simp only [exec, execTableRead, onRequest, ht, hq, withVersion] at h
            split at h
            · cases h; exact .inl ⟨_, rfl⟩
            · split at h <;> cases h <;> exact .inl ⟨_, rfl⟩
          · cases he

end Sys2Proof.Machine
end

