-- ==== Sys2Proof/Tests/Slice0.lean ====
section
/-! SUPPORT. The model's own tests. Expected results are those of `spec/95_test_vectors.md` (the vector's name is in the
comment) or written out by hand from the encoding tables; the witnesses show that the hypotheses of each obligation can
be met, at boundary values. -/

namespace Sys2Proof.Tests

open Sys2Proof Sys2Proof.Machine

/-! ### Instruction terms that are refused (R63) -/

theorem smoke_str_zero : Instr.wf (.str 0) = false := by decide
theorem smoke_str_256 : Instr.wf (.str 256) = false := by decide
theorem smoke_bits_zero : Instr.wf (.bits 0) = false := by decide
theorem smoke_bits_nine : Instr.wf (.bits 9) = false := by decide
theorem smoke_skip_zero : Instr.wf (.skip 0) = false := by decide
theorem smoke_skip_256 : Instr.wf (.skip 256) = false := by decide
theorem smoke_pad_zero : Instr.wf (.pad 0) = false := by decide
theorem smoke_pad_eight : Instr.wf (.pad 8) = false := by decide

/-! ### Words written out bit by bit from R60, R61, R67 -/

theorem test_word_end : decode (.desc 0b0000_0000_00000000#16) = .ok .endTable := rfl
theorem test_word_str4 : decode (.desc 0b0001_0000_00000100#16) = .ok (.str 4) := rfl
theorem test_word_str255 : decode (.desc 0b0001_0000_11111111#16) = .ok (.str 255) := rfl
theorem test_word_u8 : decode (.desc 0b0010_0000_00000000#16) = .ok .u8 := rfl
theorem test_word_u16le : decode (.desc 0b0011_0000_00000000#16) = .ok .u16le := rfl
theorem test_word_u16be : decode (.desc 0b0100_0000_00000000#16) = .ok .u16be := rfl
theorem test_word_bits8 : decode (.desc 0b0101_0000_00001000#16) = .ok (.bits 8) := rfl
theorem test_word_skip255 : decode (.desc 0b0110_0000_11111111#16) = .ok (.skip 255) := rfl
theorem test_word_pad7 : decode (.desc 0b0111_0000_00000111#16) = .ok (.pad 7) := rfl
theorem test_word_decode : decode (.req 0b00#2) = .ok .decode := rfl
theorem test_word_table_read : decode (.req 0b01#2) = .ok .tableRead := rfl

/-- §2.11: the illegal words, each with the case of R69 that makes it so. -/
theorem test_illegal_words :
    decodeDesc 0x0001#16 = .error .badCount ∧ decodeDesc 0x1000#16 = .error .badCount ∧
    decodeDesc 0x1104#16 = .error .reservedBits ∧ decodeDesc 0x2001#16 = .error .badCount ∧
    decodeDesc 0x2100#16 = .error .reservedBits ∧ decodeDesc 0x4002#16 = .error .badCount ∧
    decodeDesc 0x5000#16 = .error .badCount ∧ decodeDesc 0x5009#16 = .error .badCount ∧
    decodeDesc 0x6000#16 = .error .badCount ∧ decodeDesc 0x7000#16 = .error .badCount ∧
    decodeDesc 0x7008#16 = .error .badCount ∧ decodeDesc 0x8000#16 = .error .reservedOp ∧
    decodeDesc 0xF0FF#16 = .error .reservedOp := ⟨rfl, rfl, rfl, rfl, rfl, rfl, rfl, rfl, rfl, rfl, rfl, rfl, rfl⟩

theorem test_reserved_requests :
    decodeReq 0b10#2 = .error .reservedRequest ∧ decodeReq 0b11#2 = .error .reservedRequest := ⟨rfl, rfl⟩

/-- The opcode table's numbering: a descriptor row has 16 bits, a request row 2 in one byte. -/
theorem test_table_words :
    decodeTableWord 16 0x1004 = some (.str 4) ∧ decodeTableWord 16 0x8000 = none ∧
    decodeTableWord 8 0x00 = some .decode ∧ decodeTableWord 8 0x01 = some .tableRead ∧
    decodeTableWord 8 0x02 = none := by decide

/-! ### Small states -/

/-- The configuration of `95_test_vectors.md`: `MAX_LEN` 102, `MAX_ENTRIES` 16, `MAX_FIELDS` 32. -/
def params (a b : List Word) : Build :=
  { maxLen := 102, maxEntries := 16, maxFields := 32, tableA := Memory.ofList a, tableB := Memory.ofList b }

/-- `TABLE[0] = u8; end` and `TABLE[1] = u16le; end` (§2.9). -/
def paramsQ : Build := params [0x2000] [0x3000]

theorem paramsQ_wf : paramsQ.wf = true := by decide +kernel

def blockQ : Block := ⟨paramsQ, paramsQ_wf⟩

/-- A DECODE of version A with the cursor at `c` and `k` values emitted, over the bytes `bs`. -/
def walkAt (c k : Nat) (bs : List Byte) : Txn :=
  { ver := .a, buf := Memory.ofList bs, len := bs.length, i := 0, c := c, k := k,
    record := List.replicate k (.uns 1 0) }

def walking (t : Txn) : State := { block := blockQ, txn := some t, requests := [], responses := [] }

/-- The working state an instruction leaves. -/
def workingAfter (i : Instr) (t : Txn) : Option Txn :=
  match exec i (walking t) with
  | .next s => s.txn
  | .fault _ => none
  | .refused _ => none

/-- The last value emitted, with the cursor after it. -/
def lastValue (i : Instr) (t : Txn) : Option (Option Value × Nat) :=
  (workingAfter i t).map (fun u => (u.record.getLast?, u.c))

/-- The responses an instruction gives. -/
def answers (i : Instr) (s : State) : List Response :=
  match exec i s with
  | .next s' => s'.responses
  | .fault _ => []
  | .refused _ => []

def request (op : BitVec 2) (ver : BitVec 8) (bs : List Byte) (len idx : Nat) : Request :=
  { reqOp := op, ver := ver, len := len, buf := Memory.ofList bs, idx := idx }

def asked (r : Request) : State := { block := blockQ, txn := none, requests := [r], responses := [] }

/-- The responses one step gives. -/
def stepAnswers (s : State) : List Response :=
  match step s with
  | .next s' => s'.responses
  | .fault _ => []
  | .refused _ => []

/-! ### One instruction on a small state -/

/-- S3: no ASCII check, the bytes in ascending order. -/
theorem test_str_raw_bytes :
    lastValue (.str 4) (walkAt 0 0 [0x00, 0xFF, 0x20, 0x7F]) = some (some (.str [0x00, 0xFF, 0x20, 0x7F]), 32) := by
  decide

/-- S4: no partial string. -/
theorem test_str_truncated :
    answers (.str 4) (walking (walkAt 0 0 [0x50, 0x52, 0x4F])) = [.truncatedInput none 0] := by decide

/-- U3: `0x80` is 128, not negative. -/
theorem test_u8_unsigned : lastValue .u8 (walkAt 0 0 [0x80]) = some (some (.uns 8 128), 8) := by decide

/-- U4. -/
theorem test_u8_truncated : answers .u8 (walking (walkAt 0 0 [])) = [.truncatedInput none 0] := by decide

/-- L6: the U16 at odd address 1. -/
theorem test_u16le_odd_address :
    lastValue .u16le (walkAt 8 1 [0x11, 0x22, 0x33]) = some (some (.uns 16 0x3322), 24) := by decide

/-- L5: no half value. -/
theorem test_u16le_truncated : answers .u16le (walking (walkAt 0 0 [0x2C])) = [.truncatedInput none 0] := by decide

/-- B1. -/
theorem test_u16be_order : lastValue .u16be (walkAt 0 0 [0x01, 0x2C]) = some (some (.uns 16 300), 16) := by decide

/-- T10's third field: `bits 4` at the top of the second byte. -/
theorem test_bits_msb_first : lastValue (.bits 4) (walkAt 8 2 [0xC3, 0xA0]) = some (some (.uns 4 10), 12) := by decide

/-- T4: the last field of a byte. -/
theorem test_bits_low_end : lastValue (.bits 3) (walkAt 5 0 [0x05]) = some (some (.uns 3 5), 8) := by decide

/-- K1's gap: three bytes passed, nothing emitted. -/
theorem test_skip_passes :
    (workingAfter (.skip 3) (walkAt 0 0 [0xAA, 0xBB, 0xCC, 0x7F])).map (fun u => (u.c, u.k, u.i)) = some (24, 0, 1) := by
  decide

/-- K5: a trailing gap counts. -/
theorem test_skip_truncated :
    answers (.skip 2) (walking (walkAt 8 1 [0x05, 0x00])) = [.truncatedInput (some 0) 0] := by decide

/-- D1's padding. -/
theorem test_pad_passes :
    (workingAfter (.pad 5) (walkAt 3 1 [0xE0, 0x42])).map (fun u => (u.c, u.k, u.i)) = some (8, 1, 1) := by decide

/-- D3: the PAD is first in a missing byte. -/
theorem test_pad_truncated :
    answers (.pad 4) (walking (walkAt 8 1 [0x01])) = [.truncatedInput (some 0) 0] := by decide

/-- E3: END ignores the byte left over. -/
theorem test_end_answers :
    answers .endTable (walking (walkAt 8 1 [0x7F, 0x99])) = [.okDecode [.uns 1 0] 1] := by decide

/-- Q1's first step: the walk starts with the working state of R24. -/
theorem test_decode_starts :
    (match exec .decode (asked (request 0 0 [0x2A] 1 0)) with
      | .next s => s.txn.map (fun t => (t.ver, t.len, t.i, t.c, t.k))
      | .fault _ => none
      | .refused _ => none) = some (.a, 1, 0, 0, 0) := by decide

/-- Q7, Q8: `len > MAX_LEN` comes before the version. -/
theorem test_decode_too_long :
    answers .decode (asked (request 0 0 [] 103 0)) = [.badRequest] ∧
    answers .decode (asked (request 0 2 [] 103 0)) = [.badRequest] := by decide

/-- R7, R3: a word of version B, and a slot past END. -/
theorem test_table_read_words :
    answers .tableRead (asked (request 1 1 [] 0 0)) = [.okTableRead 0x3000] ∧
    answers .tableRead (asked (request 1 0 [] 0 15)) = [.okTableRead 0x0000] := by decide +kernel

/-- R4, R5, R6. -/
theorem test_table_read_errors :
    answers .tableRead (asked (request 1 0 [] 0 16)) = [.badRequest] ∧
    answers .tableRead (asked (request 1 2 [] 0 0)) = [.badVersion] ∧
    answers .tableRead (asked (request 1 2 [] 0 16)) = [.badRequest] := by decide

/-- Q3, Q4, Q5: one step of the machine on a request that fails a check. -/
theorem test_step_dispatch :
    stepAnswers (asked (request 0 2 [0x2A] 1 0)) = [.badVersion] ∧
    stepAnswers (asked (request 0 255 [] 0 0)) = [.badVersion] ∧
    stepAnswers (asked (request 2 0 [0x2A] 1 0)) = [.badRequest] := by decide

/-- The step runs a word placed by `withFetchWord` right after reset. -/
theorem test_reset_runs_placed_word :
    ((match step (State.reset.withFetchWord 16 0x10FF) with
      | .next s => s.txn.map (fun t => (t.i, t.c))
      | .fault _ => none
      | .refused _ => none) = some (1, 2040)) ∧
    ((match step (State.reset.withFetchWord 8 1) with
      | .next s => s.responses
      | .fault _ => []
      | .refused _ => []) = [.okTableRead 0x0000]) := by
  constructor <;> decide +kernel

/-! ### The whole transaction, the table checks and the assembler -/

/-- P2 of §3. -/
def tableP2 : List Word := [0x1004, 0x2000, 0x6002, 0x5003, 0x7001, 0x5001, 0x5001, 0x5002, 0x3000, 0x0000]

def bytesP2 : List Byte := [0x58, 0x58, 0x58, 0x58, 0x80, 0xAA, 0xBB, 0xEB, 0x2C, 0x01]

/-- P2.a, P2.c, P2.e, P2.g, P2.i. -/
theorem test_transact_P2 :
    transact (params tableP2 []) (request 0 0 bytesP2 10 0) =
      .okDecode [.str [0x58, 0x58, 0x58, 0x58], .uns 8 128, .uns 3 7, .uns 1 1, .uns 1 0, .uns 2 3, .uns 16 300] 7 ∧
    transact (params tableP2 []) (request 0 0 bytesP2 9 0) = .truncatedInput (some 5) 8 ∧
    transact (params tableP2 []) (request 0 0 bytesP2 7 0) = .truncatedInput (some 1) 3 ∧
    transact (params tableP2 []) (request 0 0 bytesP2 5 0) = .truncatedInput (some 1) 2 ∧
    transact (params tableP2 []) (request 0 0 bytesP2 0 0) = .truncatedInput none 0 := by decide +kernel

/-- The field map of P2. -/
theorem test_field_map_P2 :
    fieldMap ((params tableP2 []).program .a) =
      [⟨0, 32, 0⟩, ⟨4, 8, 0⟩, ⟨7, 3, 0⟩, ⟨7, 1, 4⟩, ⟨7, 1, 5⟩, ⟨7, 2, 6⟩, ⟨8, 16, 0⟩] ∧
    (params tableP2 []).requiredLen .a = 10 := by decide +kernel

/-- F1 to F9: the refused tables, each with its check and index. -/
theorem test_tables_refused :
    (params [0x5003, 0x2000] []).check .a = some (.wf3, 1) ∧
    (params [0x5006, 0x5003, 0x7007] []).check .a = some (.wf4, 1) ∧
    (params [0x5003] []).check .a = some (.wf5, 1) ∧
    (params [0x8000] []).check .a = some (.wf1, 0) ∧
    (params [0x7000] []).check .a = some (.wf1, 0) ∧
    (params (List.replicate 16 0x2000) []).check .a = some (.wf2, 16) ∧
    (params [0x6067] []).check .a = some (.wf6, 1) ∧
    { params [0x2000, 0x2000, 0x2000] [] with maxFields := 2 }.check .a = some (.wf7, 3) ∧
    (params [0x2000, 0x0000, 0x2000] []).check .a = some (.wf8, 2) := by decide +kernel

/-- F1 to F9: the nearest accepted tables. -/
theorem test_tables_accepted :
    (params [0x5003, 0x7005, 0x2000] []).check .a = none ∧
    (params [0x5006, 0x5002, 0x5001, 0x7007] []).check .a = none ∧
    (params [0x7001, 0x5007] []).check .a = none ∧
    (params (List.replicate 15 0x2000) []).check .a = none ∧
    (params [0x6066] []).check .a = none ∧
    { params [0x2000, 0x2000] [] with maxFields := 2 }.check .a = none := by decide +kernel

/-- A1, A3, A5: the pseudo-descriptors. -/
theorem test_expansions :
    expandAlign 3 = [.pad 5] ∧ expandAlign 0 = [] ∧ expandSkip 300 = [.skip 255, .skip 45] ∧
    expandSkip 510 = [.skip 255, .skip 255] ∧ expandSkipbits 5 20 = [.pad 3, .skip 2, .pad 1] := by decide

/-- A6: a transcribed listing. -/
theorem test_transcribe_A6 :
    (transcribe .msb [⟨"t", 6, 16, 0, .other (some false)⟩, ⟨"hdr", 0, 32, 0, .string 4⟩, ⟨"y", 4, 3, 4, .other none⟩,
        ⟨"x", 4, 2, 0, .other none⟩] (some 8)).toOption.map (fun es => es.filterMap encodeDesc)
      = some [0x1004, 0x5002, 0x7002, 0x5003, 0x7001, 0x6001, 0x3000, 0x0000] := by decide

/-- A6 with its positions counted from the least significant bit, and a field that would leave its byte. -/
theorem test_transcribe_lsb :
    (transcribe .lsb [⟨"hdr", 0, 32, 0, .string 4⟩, ⟨"x", 4, 2, 6, .other none⟩, ⟨"y", 4, 3, 1, .other none⟩,
        ⟨"t", 6, 16, 0, .other (some false)⟩] (some 8)).toOption.map (fun es => es.filterMap encodeDesc)
      = some [0x1004, 0x5002, 0x7002, 0x5003, 0x7001, 0x6001, 0x3000, 0x0000] ∧
    (match transcribe .lsb [⟨"z", 0, 3, 6, .other none⟩] none with | .error e => some e | .ok _ => none)
      = some .crossesByte := by decide

/-- R71: a labelled line with a comment, and lines that are refused (a bare `u16`, a count out of range). -/
theorem test_parse_lines :
    (parseLine "program_name: str 0x10 ; a comment".toList).toOption = some (some (.desc (.str 16))) ∧
    (parseLine "; only a comment".toList).toOption = some none ∧
    (match parseLine "u16".toList with | .error e => some e | .ok _ => none) = some .unknownMnemonic ∧
    (match parseLine "bits 9".toList with | .error e => some e | .ok _ => none) = some .badOperand := by decide

/-! ### Witnesses: the hypotheses of the obligations can be met -/

/-- P2 as version A, `u16le; end` as version B. -/
theorem paramsP2_wf : (params tableP2 [0x3000]).wf = true := by decide +kernel

def blockP2 : Block := ⟨params tableP2 [0x3000], paramsP2_wf⟩

/-- A block of P2 in the middle of a DECODE of 10 bytes, at entry 1. -/
def midWalk : State :=
  { block := blockP2, requests := [request 1 1 [] 0 0], responses := [.badVersion]
    txn := some { ver := .a, buf := Memory.ofList bytesP2, len := 10, i := 1, c := 32, k := 1,
                  record := [.str [0x58, 0x58, 0x58, 0x58]] } }

theorem midWalk_inv : midWalk.Inv := by decide +kernel

/-- The same at its END. -/
def endWalk : State :=
  { midWalk with txn := some { ver := .b, buf := Memory.ofList [0x2C, 0x01], len := 2, i := 1, c := 16, k := 1,
                               record := [.uns 16 300] } }

theorem endWalk_inv : endWalk.Inv := by decide +kernel

/-- An idle block of P2 and `u16le; end` with a DECODE waiting. -/
def waiting : State :=
  { block := blockP2, txn := none, requests := [request 0 0 bytesP2 10 0], responses := [] }

theorem waiting_inv : waiting.Inv := by decide +kernel

theorem witness_DecodeEncodeRoundTrip : Instr.wf (.str 255) = true ∧ Instr.wf (.pad 1) = true := by decide

theorem witness_EncodeDecodeRoundTrip :
    decode (.desc 0x5008#16) = .ok (.bits 8) ∧ decode (.req 1#2) = .ok .tableRead := ⟨rfl, rfl⟩

theorem witness_StepRunsFetchedDescriptor :
    ∃ t, midWalk.txn = some t ∧ t.i < midWalk.build.maxEntries ∧
      (decodeDesc (Memory.read (midWalk.build.table t.ver) t.i)).toOption = some .u8 :=
  ⟨_, rfl, by decide, by decide⟩

theorem witness_StepRunsOldestRequest :
    waiting.txn = none ∧ waiting.requests = request 0 0 bytesP2 10 0 :: [] ∧
      decodeReq (request 0 0 bytesP2 10 0).reqOp = .ok .decode := ⟨rfl, rfl, rfl⟩

theorem witness_IdleBlockStaysIdle : State.reset.txn = none ∧ State.reset.requests = [] := ⟨rfl, rfl⟩

theorem witness_PlacedWordRunsNext :
    decodeTableWord 16 0x7007 = some (.pad 7) ∧ decodeTableWord 8 0 = some .decode := by decide

/-- Both clauses of StrEmitsItsBytes, at `a + n = len` and at `a + n = len + 1`. -/
theorem witness_StrEmitsItsBytes :
    (∃ (s : State) (t : Txn) (n : Nat), 1 ≤ n ∧ n ≤ 255 ∧ s.txn = some t ∧ t.c % 8 = 0 ∧ t.k < s.build.maxFields ∧
      t.c / 8 + n ≤ t.len) ∧
    (∃ (s : State) (t : Txn) (n : Nat), 1 ≤ n ∧ n ≤ 255 ∧ s.txn = some t ∧ t.c % 8 = 0 ∧ t.k < s.build.maxFields ∧
      t.len < t.c / 8 + n) :=
  ⟨⟨walking (walkAt 8 0 [1, 2, 3]), walkAt 8 0 [1, 2, 3], 2, by decide⟩,
    ⟨walking (walkAt 8 0 [1, 2, 3]), walkAt 8 0 [1, 2, 3], 3, by decide⟩⟩

/-- Both clauses of U8EmitsItsByte, at `len = 1` and at `len = 0`, with 31 of the 32 slots taken. -/
theorem witness_U8EmitsItsByte :
    (∃ (s : State) (t : Txn), s.txn = some t ∧ t.c % 8 = 0 ∧ t.k < s.build.maxFields ∧ t.c / 8 + 1 ≤ t.len) ∧
    (∃ (s : State) (t : Txn), s.txn = some t ∧ t.c % 8 = 0 ∧ t.k < s.build.maxFields ∧ t.len < t.c / 8 + 1) :=
  ⟨⟨walking (walkAt 0 31 [1]), walkAt 0 31 [1], by decide⟩, ⟨walking (walkAt 0 31 []), walkAt 0 31 [], by decide⟩⟩

/-- Both clauses of U16leEmitsLittleEndian, at odd address 1 with two bytes and with one byte left. -/
theorem witness_U16leEmitsLittleEndian :
    (∃ (s : State) (t : Txn), s.txn = some t ∧ t.c % 8 = 0 ∧ t.k < s.build.maxFields ∧ t.c / 8 + 2 ≤ t.len) ∧
    (∃ (s : State) (t : Txn), s.txn = some t ∧ t.c % 8 = 0 ∧ t.k < s.build.maxFields ∧ t.len < t.c / 8 + 2) :=
  ⟨⟨walking (walkAt 8 0 [1, 2, 3]), walkAt 8 0 [1, 2, 3], by decide⟩,
    ⟨walking (walkAt 8 0 [1, 2]), walkAt 8 0 [1, 2], by decide⟩⟩

/-- Both clauses of U16beEmitsBigEndian, at `len = 2` and at `len = 1`. -/
theorem witness_U16beEmitsBigEndian :
    (∃ (s : State) (t : Txn), s.txn = some t ∧ t.c % 8 = 0 ∧ t.k < s.build.maxFields ∧ t.c / 8 + 2 ≤ t.len) ∧
    (∃ (s : State) (t : Txn), s.txn = some t ∧ t.c % 8 = 0 ∧ t.k < s.build.maxFields ∧ t.len < t.c / 8 + 2) :=
  ⟨⟨walking (walkAt 0 0 [1, 2]), walkAt 0 0 [1, 2], by decide⟩, ⟨walking (walkAt 0 0 [1]), walkAt 0 0 [1], by decide⟩⟩

/-- Both clauses of SkipPassesWholeBytes, at counts 3 and 4 of three bytes left. -/
theorem witness_SkipPassesWholeBytes :
    (∃ (s : State) (t : Txn) (n : Nat), 1 ≤ n ∧ n ≤ 255 ∧ s.txn = some t ∧ t.c % 8 = 0 ∧ t.c / 8 + n ≤ t.len) ∧
    (∃ (s : State) (t : Txn) (n : Nat), 1 ≤ n ∧ n ≤ 255 ∧ s.txn = some t ∧ t.c % 8 = 0 ∧ t.len < t.c / 8 + n) :=
  ⟨⟨walking (walkAt 8 0 [1, 2, 3, 4]), walkAt 8 0 [1, 2, 3, 4], 3, by decide⟩,
    ⟨walking (walkAt 8 0 [1, 2, 3, 4]), walkAt 8 0 [1, 2, 3, 4], 4, by decide⟩⟩

/-- Both clauses of BitsEmitsPackedField: the last field of the last byte, and the first of a missing byte. -/
theorem witness_BitsEmitsPackedField :
    (∃ (s : State) (t : Txn) (n : Nat), 1 ≤ n ∧ n ≤ 8 ∧ s.txn = some t ∧ t.c % 8 + n ≤ 8 ∧ t.k < s.build.maxFields ∧
      t.c + n ≤ 8 * t.len) ∧
    (∃ (s : State) (t : Txn) (n : Nat), 1 ≤ n ∧ n ≤ 8 ∧ s.txn = some t ∧ t.c % 8 + n ≤ 8 ∧ t.k < s.build.maxFields ∧
      8 * t.len < t.c + n) :=
  ⟨⟨walking (walkAt 5 0 [1]), walkAt 5 0 [1], 3, by decide⟩, ⟨walking (walkAt 8 0 [1]), walkAt 8 0 [1], 8, by decide⟩⟩

/-- Both clauses of PadPassesBits: the end of the last byte, and the first bit of a missing byte. -/
theorem witness_PadPassesBits :
    (∃ (s : State) (t : Txn) (n : Nat), 1 ≤ n ∧ n ≤ 7 ∧ s.txn = some t ∧ t.c % 8 + n ≤ 8 ∧ t.c + n ≤ 8 * t.len) ∧
    (∃ (s : State) (t : Txn) (n : Nat), 1 ≤ n ∧ n ≤ 7 ∧ s.txn = some t ∧ t.c % 8 + n ≤ 8 ∧ 8 * t.len < t.c + n) :=
  ⟨⟨walking (walkAt 1 0 [1]), walkAt 1 0 [1], 7, by decide⟩, ⟨walking (walkAt 8 0 [1]), walkAt 8 0 [1], 1, by decide⟩⟩

theorem witness_EndAnswersRecord : ∃ (s : State) (t : Txn), s.txn = some t ∧ t.c % 8 = 0 :=
  ⟨walking (walkAt 16 2 [1, 2, 3]), walkAt 16 2 [1, 2, 3], by decide⟩

/-- The five clauses of MisplacedDescriptorsRefused: WF1; WF3, WF4 and WF5 at cursor 1 (WF4 at the smallest crossing);
WF7 with every slot taken. -/
theorem witness_MisplacedDescriptorsRefused :
    (∃ e : Instr, e.isDescriptor = true ∧ e.wf = false) ∧
    (∃ (s : State) (t : Txn), s.txn = some t ∧ t.c % 8 ≠ 0 ∧ Instr.wf (.str 1) = true ∧
      Instr.wf (.bits 8) = true ∧ 8 < t.c % 8 + 8) ∧
    (∃ (s : State) (t : Txn), s.txn = some t ∧ Instr.defect .u8 t.c = none ∧ Instr.isOutput .u8 = true ∧
      s.build.maxFields ≤ t.k) :=
  ⟨⟨.pad 8, by decide⟩, ⟨walking (walkAt 1 0 [1]), walkAt 1 0 [1], by decide⟩,
    ⟨walking (walkAt 0 32 [1]), walkAt 0 32 [1], by decide⟩⟩

/-- A table of `u8`s with the word `w` at entry `j`. -/
def spoilt (j : Nat) (w : Word) : Build := params (List.replicate j 0x2000 ++ [w]) []

theorem read_spoilt (w : Word) (i : Nat) :
    Memory.read ((spoilt 14 w).table .a) i = (List.replicate 14 0x2000#16 ++ [w]).getD i 0x0000#16 :=
  Memory.read_ofList _ i

/-- An illegal word at the last entry before END meets the hypotheses of IllegalEntriesRefused. -/
theorem spoilt_meets_hypotheses {w : Word} (hw : illegalWord w) :
    14 < 15 ∧ 15 < (spoilt 14 w).maxEntries ∧ Memory.read ((spoilt 14 w).table .a) 15 = 0x0000#16 ∧
    (∀ i, i < 14 → Memory.read ((spoilt 14 w).table .a) i ≠ 0x0000#16 ∧
      ¬ illegalWord (Memory.read ((spoilt 14 w).table .a) i)) ∧
    illegalWord (Memory.read ((spoilt 14 w).table .a) 14) := by
  refine ⟨by decide, (by decide : 15 < 16), by rw [read_spoilt]; rfl, fun i hi => ?_, by rw [read_spoilt]; exact hw⟩
  have h : Memory.read ((spoilt 14 w).table .a) i = 0x2000#16 := by
    rw [read_spoilt]; interval_cases i <;> rfl
  rw [h]
  exact ⟨by decide, by simp [illegalWord]⟩

/-- Words illegal by each case of R69 (a), (b), (c), counts at the edges of their ranges, beside legal ones. -/
theorem witness_IllegalEntriesRefused :
    illegalWord 0x8000#16 ∧ illegalWord 0x1104#16 ∧ illegalWord 0x5000#16 ∧ illegalWord 0x5009#16 ∧
    illegalWord 0x2001#16 ∧ illegalWord 0x7008#16 ∧ illegalWord 0x1000#16 ∧
    ¬ illegalWord 0x5008#16 ∧ ¬ illegalWord 0x7007#16 ∧ ¬ illegalWord 0x10FF#16 := by
  simp [illegalWord]

/-- No END in 16 slots. -/
theorem witness_IllegalEntriesRefused_endless :
    ∀ i, i < (spoilt 15 0x2000#16).maxEntries → Memory.read ((spoilt 15 0x2000#16).table .a) i ≠ 0x0000#16 := by
  decide +kernel

/-- The last slot of a built block, and a walk one past it. -/
theorem witness_IllegalEntriesRefused_slots :
    15 < (walking (walkAt 0 0 [])).build.maxEntries ∧
    ∃ (s : State) (t : Txn), s.txn = some t ∧ s.build.maxEntries ≤ t.i :=
  ⟨by decide, walking { walkAt 0 0 [] with i := 16 }, { walkAt 0 0 [] with i := 16 }, by decide⟩

theorem witness_OutOfPlaceOperationsRefused :
    (∃ s : State, s.txn = none ∧ s.requests = []) ∧ (∃ (s : State) (t : Txn), s.txn = some t) :=
  ⟨⟨State.reset, rfl, rfl⟩, ⟨walking (walkAt 0 0 []), _, rfl⟩⟩

/-- Both clauses of FitCheckDecides, for a gap and for an output descriptor. -/
theorem witness_FitCheckDecides :
    (∃ (s : State) (t : Txn) (e : Instr), s.txn = some t ∧ e.inWalk = true ∧ e.defect t.c = none ∧
      (e.isOutput = true → t.k < s.build.maxFields) ∧ t.c + e.width ≤ 8 * t.len) ∧
    (∃ (s : State) (t : Txn) (e : Instr), s.txn = some t ∧ e.inWalk = true ∧ e.defect t.c = none ∧
      (e.isOutput = true → t.k < s.build.maxFields) ∧ 8 * t.len < t.c + e.width) :=
  ⟨⟨walking (walkAt 1 0 [1]), walkAt 1 0 [1], .pad 7, by decide⟩,
    ⟨walking (walkAt 8 31 [1]), walkAt 8 31 [1], .u8, by decide⟩⟩

/-- DecodeStartsWalk at `len = MAX_LEN`, for either version. -/
theorem witness_DecodeStartsWalk :
    (∃ (s : State) (r : Request), s.txn = none ∧ s.requests = [r] ∧ r.len ≤ s.build.maxLen ∧
      r.ver = 0#8) ∧
    (∃ (s : State) (r : Request), s.txn = none ∧ s.requests = [r] ∧ r.len ≤ s.build.maxLen ∧
      r.ver = 1#8) :=
  ⟨⟨asked (request 0 0 [] 102 0), request 0 0 [] 102 0, by decide +kernel⟩,
    ⟨asked (request 0 1 [] 102 0), request 0 1 [] 102 0, by decide +kernel⟩⟩

/-- TableReadAnswersWord at the first slot, and at the last, which is past END. -/
theorem witness_TableReadAnswersWord :
    (∃ (s : State) (r : Request), s.txn = none ∧ s.requests = [r] ∧ r.idx < s.build.maxEntries ∧
      r.ver = 0#8) ∧
    (∃ (s : State) (r : Request), s.txn = none ∧ s.requests = [r] ∧ r.idx < s.build.maxEntries ∧
      r.ver = 1#8 ∧ (s.build.program .b).length ≤ r.idx) :=
  ⟨⟨asked (request 1 0 [] 0 0), request 1 0 [] 0 0, by decide +kernel⟩,
    ⟨asked (request 1 1 [] 0 15), request 1 1 [] 0 15, by decide +kernel⟩⟩

/-- The clauses of RequestChecksInOrder at their boundaries. -/
theorem witness_RequestChecksInOrder :
    (∃ (s : State) (r : Request), s.block = blockQ ∧ s.txn = none ∧ s.requests = [r] ∧ r.reqOp ≠ 0#2 ∧ r.reqOp ≠ 1#2) ∧
    (∃ (s : State) (r : Request), s.block = blockQ ∧ s.txn = none ∧ s.requests = [r] ∧ r.reqOp = 0#2 ∧
      s.build.maxLen < r.len) ∧
    (∃ (s : State) (r : Request), s.block = blockQ ∧ s.txn = none ∧ s.requests = [r] ∧ r.reqOp = 1#2 ∧
      s.build.maxEntries ≤ r.idx) ∧
    (∃ (s : State) (r : Request), s.block = blockQ ∧ s.txn = none ∧ s.requests = [r] ∧ r.reqOp = 0#2 ∧
      r.len ≤ s.build.maxLen ∧ 2 ≤ r.ver.toNat) ∧
    (∃ (s : State) (r : Request), s.block = blockQ ∧ s.txn = none ∧ s.requests = [r] ∧ r.reqOp = 1#2 ∧
      r.idx < s.build.maxEntries ∧ 2 ≤ r.ver.toNat) :=
  ⟨⟨asked (request 2 0 [] 0 0), request 2 0 [] 0 0, by decide⟩,
    ⟨asked (request 0 2 [] 103 0), request 0 2 [] 103 0, by decide⟩,
    ⟨asked (request 1 2 [] 0 16), request 1 2 [] 0 16, by decide⟩,
    ⟨asked (request 0 2 [] 102 0), request 0 2 [] 102 0, by decide⟩,
    ⟨asked (request 1 255 [] 0 15), request 1 255 [] 0 15, by decide⟩⟩

/-- UnbuildableBlockRefuses: P4 of §3 as version A and as version B, and its nearest accepted configuration. -/
theorem witness_UnbuildableBlockRefuses :
    (params [0x5003, 0x2000] []).check .a = some (.wf3, 1) ∧
    (params [] [0x5003, 0x2000]).tableRefusal .a = none ∧
    (params [] [0x5003, 0x2000]).check .b = some (.wf3, 1) ∧
    (params [] [0x5003, 0x7005, 0x2000]).refusal = none := by decide +kernel

/-- P4: the configuration cannot be built, and the refusal gives the check and the index. -/
theorem test_construct_P4 :
    (match (params [] [0x5003, 0x2000]).construct with | .ok _ => none | .error r => some r)
      = some (.illFormedTable .b .wf3 1) := by decide +kernel

theorem witness_FieldsAreStreamBits : 5 % 8 + 3 ≤ 8 ∧ 16 % 8 = 0 := by decide

theorem witness_DeclaredOrderFillsByte : 1 ≤ 3 ∧ 1 ≤ 2 ∧ 3 + 3 + 2 ≤ 8 := by decide

theorem witness_SubByteFitIsBytePresence : 1 ≤ 8 ∧ (walkAt 8 0 [1]).c % 8 + 8 ≤ 8 := by decide

theorem witness_MemoryIsCanonical :
    Memory.wf (Memory.ofList bytesP2) = true ∧ Memory.wf (Memory.write (Memory.ofList bytesP2) 3 0#8) = true := by decide

theorem witness_DescriptorsNeverOverlap :
    ⟨4, 59, .pad 1⟩ ∈ place 0 0 ((params tableP2 []).program .a) ∧
    ⟨5, 60, .bits 1⟩ ∈ place 0 0 ((params tableP2 []).program .a) := by decide +kernel

theorem witness_ResetTableReadsHeaderWord :
    (request 1 1 [] 0 0).reqOp = 1#2 ∧ (request 1 1 [] 0 0).ver = 1#8 ∧ (request 1 1 [] 0 0).idx = 0 := by decide

theorem witness_TruncationIffTooShort :
    9 < (params tableP2 []).requiredLen .a ∧ (params tableP2 []).requiredLen .a ≤ 10 := by
  decide +kernel

theorem witness_TrailingBytesIgnored :
    (params tableP2 []).requiredLen .a ≤ 11 ∧
    ∀ a, a < 10 → Memory.read (Memory.ofList (bytesP2 ++ [0xFF])) a = Memory.read (Memory.ofList bytesP2) a := by
  decide +kernel

theorem witness_StepsAnswerTheTransaction :
    waiting.Inv ∧ waiting.txn = none ∧ waiting.requests = request 0 0 bytesP2 10 0 :: [] := ⟨waiting_inv, rfl, rfl⟩

/-- EqualRequestsEqualResponses: two buffers that differ past `len`. -/
theorem witness_EqualRequestsEqualResponses :
    waiting.Inv ∧ { waiting with requests := [request 0 0 (bytesP2 ++ [0xFF]) 10 0] }.Inv ∧
    ∀ a, a < 10 → Memory.read (request 0 0 bytesP2 10 0).buf a
      = Memory.read (request 0 0 (bytesP2 ++ [0xFF]) 10 0).buf a := by decide +kernel

/-- A good state whose next descriptor does not fit. -/
def shortWalk : State :=
  { midWalk with txn := some { ver := .b, buf := Memory.ofList [0x2C], len := 1, i := 0, c := 0, k := 0, record := [] } }

theorem shortWalk_inv : shortWalk.Inv := by decide +kernel

/-- AllOrNothing: a step that ends the transaction, at END and at a truncation. -/
theorem witness_AllOrNothing :
    (endWalk.Inv ∧ ∃ s', step endWalk = .next s' ∧ s'.txn = none) ∧
    (shortWalk.Inv ∧ ∃ s', step shortWalk = .next s' ∧ s'.txn = none) :=
  ⟨⟨endWalk_inv, _, rfl, rfl⟩, ⟨shortWalk_inv, _, rfl, rfl⟩⟩

theorem witness_WalkTerminates : midWalk.Inv ∧ midWalk.txn.isSome = true := ⟨midWalk_inv, rfl⟩

theorem witness_InvariantKept : midWalk.Inv ∧ ∃ s', step midWalk = .next s' := ⟨midWalk_inv, _, rfl⟩

/-- EndCompletesWalk: the walk of `u16le; end` at its END. -/
theorem witness_EndCompletesWalk :
    endWalk.Inv ∧ ∃ t, endWalk.txn = some t ∧ t.i = (endWalk.build.program t.ver).length :=
  ⟨endWalk_inv, _, rfl, by decide +kernel⟩

theorem witness_BuiltBlockAlwaysSteps : waiting.Inv := waiting_inv

theorem witness_NothingIsWritten :
    ∃ s', step midWalk = .next s' ∧ s'.txn.isSome = true := ⟨_, rfl, rfl⟩

/-- OneResponsePerRequest: a walk that ends, an idle block that starts a DECODE, and one that answers at once. -/
theorem witness_OneResponsePerRequest :
    (∃ s', step endWalk = .next s') ∧ (waiting.txn = none ∧ ∃ s', step waiting = .next s' ∧ s'.txn.isSome = true) ∧
    ∃ s', step (asked (request 1 1 [] 0 0)) = .next s' ∧ s'.requests = [] :=
  ⟨⟨_, rfl⟩, ⟨rfl, _, rfl, rfl⟩, _, rfl, rfl⟩

theorem witness_WorkingStateFitsWidths : endWalk.Inv ∧ endWalk.txn.isSome = true := ⟨endWalk_inv, rfl⟩

theorem witness_FirstRequestAfterReset :
    midWalk.Inv ∧ midWalk.requests = request 1 1 [] 0 0 :: [] := ⟨midWalk_inv, rfl⟩

theorem witness_StatusDecidesFields :
    (Response.okTableRead 0x1004#16).status = .ok ∧ (Response.okDecode [] 0).status = .ok ∧
    Response.badVersion.status ≠ .ok ∧ (Response.truncatedInput none 0).status = .truncatedInput := by decide

/-- TranscribedLayoutIsPlaced: a listing with a string at a byte boundary. -/
theorem witness_TranscribedLayoutIsPlaced :
    (transcribe .msb [⟨"hdr", 0, 32, 0, .string 4⟩, ⟨"x", 4, 2, 3, .other none⟩] none).toOption
      = some [.str 4, .pad 3, .bits 2, .pad 3, .endTable] := by decide

/-- LsbPositionsConvert at `w + p_lsb = 8`, for a 16-bit field, and past the byte. -/
theorem witness_LsbPositionsConvert : 2 + 6 ≤ 8 ∧ (8 < 16 + 0 ∧ 16 % 8 = 0) ∧ (8 < 3 + 6 ∧ 3 % 8 ≠ 0) := by decide

end Sys2Proof.Tests
end

namespace Sys2Proof.Machine

/-! ### The stream bits of a byte (R8, R45) -/

/-- The stream bits inside byte `a`, from position `p` on, are a slice of that byte (R8). -/
theorem streamBits_in_byte (buf : Buffer) (a : Nat) {p n : Nat} (h : p + n ≤ 8) :
    streamBits buf (8 * a + p) n = (Memory.read buf a).toNat / 2 ^ (8 - p - n) % 2 ^ n := by
  induction n generalizing p with
  | zero => simp [streamBits, Nat.mod_one]
  | succ n ih =>
    have haddr : (8 * a + p) / 8 = a := by omega
    have hpos : 7 - (8 * a + p) % 8 = n + (8 - (p + 1) - n) := by omega
    have hlow : 8 - p - (n + 1) = 8 - (p + 1) - n := by omega
    rw [streamBits, streamBit, haddr, hpos, Nat.add_assoc, ih (by omega), hlow, Nat.mod_pow_succ,
      ← Nat.toNat_testBit, Nat.testBit_div_two_pow, BitVec.getLsbD]
    ring

/-- A byte's eight stream bits spell the byte. -/
theorem streamBits_byte (buf : Buffer) (a : Nat) : streamBits buf (8 * a) 8 = (Memory.read buf a).toNat := by
  have h := streamBits_in_byte buf a (p := 0) (n := 8) (by decide)
  simpa [Nat.mod_eq_of_lt (Memory.read buf a).isLt] using h

/-- A run of stream bits is its first `m` bits above the rest. -/
theorem streamBits_add (buf : Buffer) (c m n : Nat) :
    streamBits buf c (m + n) = streamBits buf c m * 2 ^ n + streamBits buf (c + m) n := by
  induction m generalizing c with
  | zero => simp [streamBits]
  | succ m ih =>
    rw [Nat.add_right_comm m 1 n, streamBits, streamBits, ih (c + 1), Nat.add_assoc c 1 m, Nat.add_comm 1 m]
    ring

/-- A packed field inside a byte as a quotient and remainder. A position `p < 8` keeps the subtractions of R45 exact. -/
theorem bitField_eq_div_mod (b : Byte) {p n : Nat} (hp : p < 8) (h : p + n ≤ 8) :
    bitField b p n = b.toNat / 2 ^ (8 - p - n) % 2 ^ n := by
  have hwidth : 7 - p + 1 - (8 - p - n) = n := by omega
  rw [bitField, slice, hwidth]

/-- Settles O25: a BITS field is a slice of its byte, as the stream bits of that byte are, and the big-endian pair is the
stream bits of two bytes, one above the other. -/
theorem fieldsAreStreamBits : Obligations.FieldsAreStreamBits := by
  unfold Obligations.FieldsAreStreamBits
  refine fun buf c => ⟨fun n hn => ?_, fun hc => ?_, fun hc => ?_⟩
  · have hstream := streamBits_in_byte buf (c / 8) hn
    rw [Nat.div_add_mod] at hstream
    rw [hstream, bitField_eq_div_mod _ (Nat.mod_lt c (by decide)) hn]
  · rw [← streamBits_byte, Nat.mul_div_cancel' (Nat.dvd_of_mod_eq_zero hc)]
  · have hfirst : 8 * (c / 8) = c := Nat.mul_div_cancel' (Nat.dvd_of_mod_eq_zero hc)
    have hsecond : 8 * (c / 8 + 1) = c + 8 := by rw [Nat.mul_add, hfirst]
    calc valueBE (Memory.read buf (c / 8)) (Memory.read buf (c / 8 + 1))
        = 256 * streamBits buf c 8 + streamBits buf (c + 8) 8 := by
          rw [valueBE, ← streamBits_byte, ← streamBits_byte, hfirst, hsecond]
      _ = streamBits buf c 16 := by rw [streamBits_add buf c 8 8]; omega

/-! ### Faults (R10, R86) -/

/-- A descriptor step does not fault when its `Exec` succeeds on every working state in which the well-formed descriptor
fits: the fit check comes before any read (R86). -/
theorem runDescriptor_ne_fault {e : Instr} {f : Txn → Except Fault Txn}
    (hf : ∀ t : Txn, e.wf = true → t.c + e.width ≤ 8 * t.len → ∃ t', f t = .ok t') (s : State) (x : Fault) :
    runDescriptor e f s ≠ .fault x := by
  rcases runDescriptor_cases e f s with
    ⟨r, hr⟩ | ⟨t, -, hd, -, ⟨-, htrunc⟩ | ⟨hfit, ⟨y, hy, -⟩ | ⟨t', -, hnext⟩⟩⟩
  · simp [hr]
  · simp [htrunc]
  · obtain ⟨t', ht'⟩ := hf t (Instr.wf_of_defect hd) hfit
    simp [ht'] at hy
  · simp [hnext]

theorem execEnd_ne_fault (s : State) (x : Fault) : execEnd s ≠ .fault x := by
  unfold execEnd
  split
  · simp
  · split <;> simp

theorem onRequest_ne_fault {f : Request → Result} {x : Fault} (hf : ∀ r, f r ≠ .fault x) (s : State) :
    onRequest f s ≠ .fault x := by
  unfold onRequest
  split
  · simp
  · split
    · simp
    · exact hf _

theorem withVersion_ne_fault {f : Version → Result} {x : Fault} (hf : ∀ v, f v ≠ .fault x) (s : State) (r : Request) :
    withVersion s r f ≠ .fault x := by
  unfold withVersion
  split
  · simp
  · exact hf _

/-- No instruction faults, from any state: a value is read only from bytes that the fit check found present, and the
request operations read no buffer. -/
theorem exec_ne_fault (e : Instr) (s : State) (x : Fault) : exec e s ≠ .fault x := by
  cases e with
  | endTable => exact execEnd_ne_fault s x
  | str n => exact runDescriptor_ne_fault (fun t _ h => ⟨_, emitting_eq (Txn.strValue_eq h)⟩) s x
  | u8 => exact runDescriptor_ne_fault (fun t _ h => ⟨_, emitting_eq (Txn.u8Value_eq h)⟩) s x
  | u16le => exact runDescriptor_ne_fault (fun t _ h => ⟨_, emitting_eq (Txn.u16Value_eq valueLE h)⟩) s x
  | u16be => exact runDescriptor_ne_fault (fun t _ h => ⟨_, emitting_eq (Txn.u16Value_eq valueBE h)⟩) s x
  | bits n =>
    refine runDescriptor_ne_fault (fun t hw h => ⟨_, emitting_eq (Txn.bitsValue_eq ?_ h)⟩) s x
    simp only [Instr.wf, Bool.and_eq_true, decide_eq_true_eq] at hw
    exact hw.1
  | skip n => exact runDescriptor_ne_fault (f := silent) (fun t _ _ => ⟨t, rfl⟩) s x
  | pad n => exact runDescriptor_ne_fault (f := silent) (fun t _ _ => ⟨t, rfl⟩) s x
  | decode =>
    refine onRequest_ne_fault (fun r => ?_) s
    split
    · simp
    · exact withVersion_ne_fault (fun v => by simp) s r
  | tableRead =>
    refine onRequest_ne_fault (fun r => ?_) s
    split
    · simp
    · exact withVersion_ne_fault (fun v => by simp) s r

/-- A turn of the walk runs one instruction or is refused. -/
theorem stepWalk_ne_fault (s : State) (t : Txn) (x : Fault) : stepWalk s t ≠ .fault x := by
  unfold stepWalk
  split
  · simp
  · split
    · simp
    · exact exec_ne_fault _ s x

/-- Taking a request runs its operation or answers BadRequest. -/
theorem stepRequest_ne_fault (s : State) (r : Request) (x : Fault) : stepRequest s r ≠ .fault x := by
  unfold stepRequest
  split
  · simp
  · exact exec_ne_fault _ s x

/-- Settles O42: a step runs one instruction, and no instruction faults. -/
theorem noStepFaults : Obligations.NoStepFaults := by
  unfold Obligations.NoStepFaults
  intro s f
  cases ht : s.txn with
  | some t =>
    rw [step_walk ht]
    exact stepWalk_ne_fault s t f
  | none =>
    cases hq : s.requests with
    | nil => simp [step_idle ht hq]
    | cons r rs =>
      rw [step_request ht hq]
      exact stepRequest_ne_fault s r f

/-! ### Widths of the working state (R5, R9) -/

/-- `clog2 (m + 1)` bits hold every number up to `m` (R5). -/
theorem lt_two_pow_clog2 {n m : Nat} (h : n ≤ m) : n < 2 ^ clog2 (m + 1) := by
  unfold clog2
  split
  · omega
  · exact Nat.lt_of_le_of_lt h Nat.lt_log2_self

/-- WF5: the table's END stands at a whole number of bytes, so the required length loses no bit (R85). -/
theorem cursorAfter_program (s : State) (v : Version) :
    cursorAfter 0 (s.build.program v) = 8 * s.build.requiredLen v :=
  (Nat.mul_div_cancel' (Nat.dvd_of_mod_eq_zero (s.tableGood v).aligned)).symm

/-- Settles O46: the working state of a walk is that of the first `i` descriptors of a table that WF2, WF6 and WF7
bound. -/
theorem workingStateFitsWidths : Obligations.WorkingStateFitsWidths := by
  unfold Obligations.WorkingStateFitsWidths
  intro s t hI ht
  obtain ⟨-, hgood, -⟩ := hI
  obtain ⟨-, -, hi, hc, -, -, hk⟩ := hgood t ht
  have G := s.tableGood t.ver
  have hi' : t.i < s.build.maxEntries := Nat.lt_of_le_of_lt hi G.ends
  have hc' : t.c ≤ 8 * s.build.requiredLen t.ver := by
    rw [hc, ← cursorAfter_program]
    exact cursorAfter_take_le _ _ _
  have hlen : s.build.requiredLen t.ver ≤ s.build.maxLen := G.fits
  have hk' : t.k ≤ s.build.maxFields := hk ▸ Nat.le_trans (outputCount_take_le _ _) G.records
  exact ⟨hi', lt_two_pow_clog2 hi'.le, hc', lt_two_pow_clog2 (by omega), hk', lt_two_pow_clog2 hk'⟩

end Sys2Proof.Machine

namespace Sys2Proof.Machine

/-! ### Well-formed values and responses (R23, R27) -/

/-- A field of `n` bits is a number of `n` bits, whatever byte it is cut from. -/
theorem bitField_lt (b : Byte) {p : Nat} (hp : p < 8) (n : Nat) : bitField b p n < 2 ^ n := by
  have hwidth : 7 - p + 1 - (8 - p - n) ≤ n := by omega
  calc bitField b p n < 2 ^ (7 - p + 1 - (8 - p - n)) := Nat.mod_lt _ (Nat.two_pow_pos _)
    _ ≤ 2 ^ n := Nat.pow_le_pow_right (by decide) hwidth

theorem valueLE_lt (b0 b1 : Byte) : valueLE b0 b1 < 2 ^ 16 := by
  have h0 := b0.isLt
  have h1 := b1.isLt
  rw [valueLE]
  omega

theorem valueBE_lt (b0 b1 : Byte) : valueBE b0 b1 < 2 ^ 16 := by
  have h0 := b0.isLt
  have h1 := b1.isLt
  rw [valueBE]
  omega

theorem fieldValue_wf {e : Instr} {buf : Buffer} {c : Nat} {v : Value} (h : fieldValue e buf c = some v) :
    v.wf = true := by
  cases e with
  | endTable | skip n | pad n | decode | tableRead => cases h
  | str n => cases h; rfl
  | u8 => cases h; exact decide_eq_true (Memory.read buf (c / 8)).isLt
  | u16le => cases h; exact decide_eq_true (valueLE_lt _ _)
  | u16be => cases h; exact decide_eq_true (valueBE_lt _ _)
  | bits n => cases h; exact decide_eq_true (bitField_lt _ (Nat.mod_lt c (by decide)) n)

theorem recordFrom_wf (buf : Buffer) (c : Nat) (es : List Instr) : ∀ v ∈ recordFrom buf c es, v.wf = true := by
  induction es generalizing c with
  | nil => simp [recordFrom]
  | cons e es ih =>
    intro v hv
    rcases List.mem_append.mp hv with hfirst | hrest
    · exact fieldValue_wf (Option.mem_toList.mp hfirst)
    · exact ih _ v hrest

/-- A complete record that has a slot for every value is a well-formed answer. -/
theorem okDecode_recordFrom_wf {b : Build} {es : List Instr} (hfields : outputCount es ≤ b.maxFields) (buf : Buffer)
    (c : Nat) : (Response.okDecode (recordFrom buf c es) (outputCount es)).wf b = true := by
  simpa [Response.wf, length_recordFrom, hfields] using recordFrom_wf buf c es

/-- A truncation at a slot of the table, after values that had slots, is a well-formed answer. -/
theorem truncatedInput_wf {b : Build} {i k : Nat} (hi : i < b.maxEntries) (hk : k ≤ b.maxFields) :
    (Response.truncatedInput (lastFieldOf k) i).wf b = true := by
  cases k with
  | zero => simpa [Response.wf, lastFieldOf] using hi
  | succ k => simpa [Response.wf, lastFieldOf] using ⟨hi, Nat.lt_of_succ_le hk⟩

/-- The misfit reported is one of the descriptors, after at most all of their values. -/
theorem firstMisfit_bounds {len i c k j m : Nat} {es : List Instr} (h : firstMisfit len i c k es = some (j, m)) :
    j < i + es.length ∧ m ≤ k + outputCount es := by
  induction es generalizing i c k with
  | nil => cases h
  | cons e es ih =>
    rw [firstMisfit] at h
    rw [List.length_cons, outputCount_cons]
    split at h
    · cases h
      omega
    · obtain ⟨hj, hm⟩ := ih h
      exact ⟨by omega, by split_ifs at hm ⊢ <;> omega⟩

/-- The walk of a list of descriptors that the capacities hold answers with a well-formed response. -/
theorem decodeAll_wf {b : Build} {es : List Instr} (hentries : es.length ≤ b.maxEntries)
    (hfields : outputCount es ≤ b.maxFields) (buf : Buffer) (len : Nat) : (decodeAll es buf len).wf b = true := by
  rw [decodeAll]
  split
  next i k hmis =>
    have := firstMisfit_bounds hmis
    exact truncatedInput_wf (by omega) (by omega)
  next => exact okDecode_recordFrom_wf hfields buf 0

/-- A walk of either table of a built block answers with a well-formed response. -/
theorem decodeAll_program_wf (b : Block) (v : Version) (buf : Buffer) (len : Nat) :
    (decodeAll (b.build.program v) buf len).wf b.build = true :=
  decodeAll_wf (b.good v).ends.le (b.good v).records buf len

/-- A built block answers every request with a well-formed response. -/
theorem transact_wf (b : Block) (r : Request) : (transact b.build r).wf b.build = true := by
  unfold transact
  split
  · rfl
  split
  · rfl
  split
  · rfl
  split
  · rfl
  split
  · exact decodeAll_program_wf b _ r.buf r.len
  · rfl

/-! ### Updates that keep the invariant (R24 to R27) -/

/-- Ending the request in progress with a well-formed response keeps the invariant. -/
theorem inv_finish {s : State} {x : Response} (hI : s.Inv) (hx : x.wf s.build = true) : (s.finish x).Inv := by
  obtain ⟨hreq, -, hresp⟩ := hI
  refine ⟨hreq, by simp, fun y hy => ?_⟩
  rcases List.mem_append.mp hy with hold | hnew
  · exact hresp y hold
  · rw [List.mem_singleton.mp hnew]
    exact hx

theorem inv_takeRequest {s : State} (hI : s.Inv) : s.takeRequest.Inv := by
  obtain ⟨hreq, htxn, hresp⟩ := hI
  exact ⟨fun r hr => hreq r (List.mem_of_mem_tail hr), htxn, hresp⟩

theorem inv_withTxn {s : State} {t : Txn} (hI : s.Inv) (ht : t.good s.build) : (s.withTxn t).Inv := by
  obtain ⟨hreq, -, hresp⟩ := hI
  refine ⟨hreq, fun t' ht' => ?_, hresp⟩
  cases ht'
  exact ht

/-- The walk starts in the working state of no descriptors passed (R24). -/
theorem start_good {b : Build} {r : Request} (v : Version) (hr : r.encodable b) (hlen : r.len ≤ b.maxLen) :
    (Txn.start v r).good b := by
  obtain ⟨-, -, hbuf, -⟩ := hr
  exact ⟨hlen, hbuf, Nat.zero_le _, rfl, Nat.zero_le _, rfl, rfl⟩

/-! ### The step of a walk and the walk as one function (R81, R89) -/

/-- Past all descriptors, the record and count of a good working state are the answer of the whole walk. -/
theorem decodeAll_at_end {b : Build} {t : Txn} (hg : t.good b) (hi : t.i = (b.program t.ver).length) :
    decodeAll (b.program t.ver) t.buf t.len = .okDecode t.record t.k := by
  obtain ⟨-, -, -, hc, hin, hrec, hk⟩ := hg
  rw [hi, List.take_length] at hc hrec hk
  have hfit := (firstMisfit_eq_none (i := 0) (k := 0) (Nat.zero_le (8 * t.len))).mpr (hc ▸ hin)
  rw [decodeAll, hfit, hrec, hk]

/-- Where the next descriptor does not fit, the truncation of a good working state is the answer of the whole walk. -/
theorem decodeAll_at_misfit {b : Build} {t : Txn} (hg : t.good b) (hi : t.i < (b.program t.ver).length)
    (hmis : 8 * t.len < t.c + (b.program t.ver)[t.i].width) :
    decodeAll (b.program t.ver) t.buf t.len = t.truncation := by
  obtain ⟨-, -, -, hc, hin, -, hk⟩ := hg
  have hfirst : firstMisfit t.len 0 0 0 (b.program t.ver) = some (t.i, t.k) := by
    rw [firstMisfit_drop _ _ _ _ _ t.i (hc ▸ hin), ← hc, List.drop_eq_getElem_cons hi, firstMisfit, if_pos hmis, hk,
      List.length_take_of_le hi.le, Nat.zero_add, Nat.zero_add]
  rw [decodeAll, hfirst, Txn.truncation]

/-- A step of a walk in a good state gives the answer of the whole walk, or passes one descriptor to a good working
state. -/
theorem walk_step {s : State} {t : Txn} (hI : s.Inv) (ht : s.txn = some t) :
    step s = .next (s.finish (decodeAll (s.build.program t.ver) t.buf t.len)) ∨
      ∃ hi : t.i < (s.build.program t.ver).length,
        step s = .next (s.withTxn (t.after (s.build.program t.ver)[t.i])) ∧
          (t.after (s.build.program t.ver)[t.i]).good s.build := by
  have hg : t.good s.build := hI.2.1 t ht
  rcases walk_cases hI ht with ⟨hend, hstep⟩ | ⟨hi, ⟨hmis, hstep⟩ | ⟨-, hstep, hafter⟩⟩
  · exact .inl (by rw [hstep, decodeAll_at_end hg hend])
  · exact .inl (by rw [hstep, decodeAll_at_misfit hg hi hmis])
  · exact .inr ⟨hi, hstep, hafter⟩

/-! ### The invariant is kept -/

/-- Settles O40: a step in a good state ends the walk with the answer of the transaction function, passes a descriptor,
answers the oldest request or starts its walk, and each of these keeps the invariant. -/
theorem invariantKept : Obligations.InvariantKept := by
  unfold Obligations.InvariantKept
  intro s s' hI hstep
  cases ht : s.txn with
  | some t =>
    rcases walk_step hI ht with hans | ⟨_, hpass, hgood⟩
    · cases hans.symm.trans hstep
      exact inv_finish hI (decodeAll_program_wf s.block t.ver t.buf t.len)
    · cases hpass.symm.trans hstep
      exact inv_withTxn hI hgood
  | none =>
    cases hq : s.requests with
    | nil =>
      cases (step_idle ht hq).symm.trans hstep
      exact hI
    | cons r rs =>
      rcases request_cases ht hq with hans | ⟨v, -, hlen, -, hstart⟩
      · cases hans.symm.trans hstep
        exact inv_finish (inv_takeRequest hI) (transact_wf s.block r)
      · cases hstart.symm.trans hstep
        have hr : r.encodable s.build := hI.1 r (by simp [hq])
        exact inv_withTxn (inv_takeRequest hI) (start_good v hr hlen)

/-! ### Runs of a whole transaction (R80, R81, R20) -/

/-- A walk runs to the answer of the whole walk, at most one step for each descriptor left and one for the answer. -/
theorem run_walk {s : State} {t : Txn} (hI : s.Inv) (ht : s.txn = some t) :
    ∃ n, n ≤ (s.build.program t.ver).length - t.i + 1 ∧
      Host.Core.run Sys2Proof.core n s = .next (s.finish (decodeAll (s.build.program t.ver) t.buf t.len)) := by
  rcases walk_step hI ht with hans | ⟨hi, hpass, hgood⟩
  · exact ⟨1, by omega, by rw [run_succ hans, run_zero]⟩
  · obtain ⟨n, hn, hrun⟩ := run_walk (inv_withTxn hI hgood) (State.withTxn_txn s _)
    simp only [State.withTxn_build, Txn.after_ver, Txn.after_i, Txn.after_buf, Txn.after_len] at hn hrun
    exact ⟨n + 1, by omega, by rw [run_succ hpass, hrun]; rfl⟩
termination_by (s.build.program t.ver).length - t.i
decreasing_by
  simp only [State.withTxn_build, Txn.after_ver, Txn.after_i]
  omega

/-- An accepted DECODE is answered by the walk of its version's table (R80, R81). -/
theorem transact_decode {b : Build} {r : Request} {v : Version} (hop : r.reqOp = 0b00#2) (hlen : r.len ≤ b.maxLen)
    (hv : Version.ofSelector r.ver = some v) : transact b r = decodeAll (b.program v) r.buf r.len := by
  simp [transact, hop, hv, Nat.not_lt.mpr hlen]

/-- An idle block in a good state runs to the answer of its oldest request: one step takes the request, and a walk takes
at most one more for each slot of the table. -/
theorem run_oldest_request {s : State} {r : Request} {rs : List Request} (hI : s.Inv) (ht : s.txn = none)
    (hq : s.requests = r :: rs) :
    ∃ n, n ≤ s.build.maxEntries + 1 ∧
      Host.Core.run Sys2Proof.core n s = .next (s.answer (transact s.build r)) := by
  rcases request_cases ht hq with hans | ⟨v, hop, hlen, hv, hstart⟩
  · exact ⟨1, by omega, by rw [run_succ hans, run_zero]⟩
  · have hr : r.encodable s.build := hI.1 r (by simp [hq])
    have hends : (s.build.program v).length < s.build.maxEntries := (s.tableGood v).ends
    obtain ⟨n, hn, hrun⟩ := run_walk (inv_withTxn (inv_takeRequest hI) (start_good v hr hlen)) (State.withTxn_txn _ _)
    simp only [State.withTxn_build, State.takeRequest_build, Txn.start_ver, Txn.start_i, Txn.start_buf,
      Txn.start_len] at hn hrun
    exact ⟨n + 1, by omega, by rw [run_succ hstart, hrun, transact_decode hop hlen hv]; rfl⟩

/-- Answering the oldest request of an idle block removes it and adds the response, and changes nothing else. -/
theorem answer_eq {s : State} {r : Request} {rs : List Request} (ht : s.txn = none) (hq : s.requests = r :: rs)
    (x : Response) : s.answer x = { s with requests := rs, responses := s.responses ++ [x] } := by
  simp [State.answer, State.takeRequest, State.finish, ht, hq]

/-- The value of a descriptor that fits in `len` bytes depends on those bytes only. -/
theorem fieldValue_congr {buf buf' : Buffer} {len : Nat} (hbuf : ∀ a, a < len → Memory.read buf a = Memory.read buf' a)
    {e : Instr} {c : Nat} (hfit : c + e.width ≤ 8 * len) : fieldValue e buf c = fieldValue e buf' c := by
  cases e with
  | endTable | skip n | pad n | decode | tableRead => rfl
  | str n =>
    simp only [Instr.width] at hfit
    rw [fieldValue, fieldValue, Memory.readList_congr fun j hj => hbuf (c / 8 + j) (by omega)]
  | u8 =>
    simp only [Instr.width] at hfit
    rw [fieldValue, fieldValue, hbuf (c / 8) (by omega)]
  | u16le | u16be =>
    simp only [Instr.width] at hfit
    rw [fieldValue, fieldValue, hbuf (c / 8) (by omega), hbuf (c / 8 + 1) (by omega)]
  | bits n =>
    simp only [Instr.width] at hfit
    cases n with
    | zero =>
      have hz (b : Byte) : bitField b (c % 8) 0 = 0 :=
        Nat.lt_one_iff.mp (bitField_lt b (Nat.mod_lt c (by decide)) 0)
      rw [fieldValue, fieldValue, hz, hz]
    | succ n => rw [fieldValue, fieldValue, hbuf (c / 8) (by omega)]

/-- The record of descriptors that all fit in `len` bytes depends on those bytes only. -/
theorem recordFrom_congr {buf buf' : Buffer} {len : Nat} (hbuf : ∀ a, a < len → Memory.read buf a = Memory.read buf' a)
    {c : Nat} {es : List Instr} (hfit : cursorAfter c es ≤ 8 * len) : recordFrom buf c es = recordFrom buf' c es := by
  induction es generalizing c with
  | nil => rfl
  | cons e es ih =>
    rw [cursorAfter_cons] at hfit
    rw [recordFrom, recordFrom, fieldValue_congr hbuf (Nat.le_trans (le_cursorAfter _ es) hfit), ih hfit]

/-- The answer of a walk depends on the buffer's first `len` bytes only. -/
theorem decodeAll_congr {buf buf' : Buffer} {len : Nat} (hbuf : ∀ a, a < len → Memory.read buf a = Memory.read buf' a)
    (es : List Instr) : decodeAll es buf len = decodeAll es buf' len := by
  unfold decodeAll
  split
  next => rfl
  next hnone => rw [recordFrom_congr hbuf ((firstMisfit_eq_none (Nat.zero_le _)).mp hnone)]

/-- R20 of the transaction function: `ver`, `len` and the first `len` bytes are all that a DECODE's answer depends on. -/
theorem transact_decode_congr {b : Build} {r r' : Request} (hop : r.reqOp = 0b00#2) (hop' : r'.reqOp = 0b00#2)
    (hver : r.ver = r'.ver) (hlen : r.len = r'.len)
    (hbuf : ∀ a, a < r.len → Memory.read r.buf a = Memory.read r'.buf a) : transact b r = transact b r' := by
  simp [transact, hop, hop', hver, ← hlen, decodeAll_congr hbuf]

/-- Settles O36: each block runs to the transaction function's answer, and that is one and the same. -/
theorem equalRequestsEqualResponses : Obligations.EqualRequestsEqualResponses := by
  unfold Obligations.EqualRequestsEqualResponses
  intro s s' r r' rs rs' hI hI' hblock ht ht' hq hq' hop hop' hver hlen hbuf
  obtain ⟨n, -, hrun⟩ := run_oldest_request hI ht hq
  obtain ⟨n', -, hrun'⟩ := run_oldest_request hI' ht' hq'
  have hbuild : s'.build = s.build := by rw [State.build, State.build, hblock]
  have hsame : transact s'.build r' = transact s.build r := by
    rw [hbuild, transact_decode_congr hop hop' hver hlen hbuf]
  rw [answer_eq ht hq] at hrun
  rw [answer_eq ht' hq', hsame] at hrun'
  exact ⟨n, n', _, hrun, hrun'⟩

/-! ### Responses already given (R29) -/

/-- The state with the responses `old` given before all of its own. -/
def State.withPast (old : List Response) (s : State) : State := { s with responses := old ++ s.responses }

@[simp] theorem State.withPast_txn (old : List Response) (s : State) : (s.withPast old).txn = s.txn := rfl
@[simp] theorem State.withPast_requests (old : List Response) (s : State) :
    (s.withPast old).requests = s.requests := rfl
@[simp] theorem State.withPast_build (old : List Response) (s : State) : (s.withPast old).build = s.build := rfl
@[simp] theorem State.withPast_fetchWord (old : List Response) (s : State) (t : Txn) :
    (s.withPast old).fetchWord t = s.fetchWord t := rfl

theorem State.withPast_finish (old : List Response) (s : State) (x : Response) :
    (s.withPast old).finish x = (s.finish x).withPast old := by
  simp [State.withPast, State.finish]

theorem State.withPast_answer (old : List Response) (s : State) (x : Response) :
    (s.withPast old).answer x = (s.answer x).withPast old :=
  State.withPast_finish old s.takeRequest x

theorem State.withPast_withTxn (old : List Response) (s : State) (t : Txn) :
    (s.withPast old).withTxn t = (s.withTxn t).withPast old := rfl

/-- The outcome of a step with the responses `old` put before those of its next state. -/
def withPastResult (old : List Response) : Result → Result
  | .next s => .next (s.withPast old)
  | .fault f => .fault f
  | .refused r => .refused r

@[simp] theorem withPastResult_next (old : List Response) (s : State) :
    withPastResult old (.next s) = .next (s.withPast old) := rfl
@[simp] theorem withPastResult_fault (old : List Response) (f : Fault) :
    withPastResult old (.fault f) = .fault f := rfl
@[simp] theorem withPastResult_refused (old : List Response) (r : Refusal) :
    withPastResult old (.refused r) = .refused r := rfl

theorem runDescriptor_withPast (old : List Response) (e : Instr) (f : Txn → Except Fault Txn) (s : State) :
    runDescriptor e f (s.withPast old) = withPastResult old (runDescriptor e f s) := by
  rw [runDescriptor, runDescriptor, State.withPast_txn, State.withPast_build]
  split
  · rfl
  split
  · rfl
  split
  · rfl
  split
  · split <;> rfl
  · rw [State.withPast_finish, withPastResult_next]

theorem execEnd_withPast (old : List Response) (s : State) :
    execEnd (s.withPast old) = withPastResult old (execEnd s) := by
  simp only [execEnd, State.withPast_txn, State.withPast_finish]
  split
  · rfl
  · split <;> rfl

theorem onRequest_withPast {old : List Response} {f g : Request → Result} (h : ∀ r, g r = withPastResult old (f r))
    (s : State) : onRequest g (s.withPast old) = withPastResult old (onRequest f s) := by
  simp only [onRequest, State.withPast_txn, State.withPast_requests]
  split
  · rfl
  split
  · rfl
  · exact h _

theorem withVersion_withPast {old : List Response} {f g : Version → Result} (h : ∀ v, g v = withPastResult old (f v))
    (s : State) (r : Request) :
    withVersion (s.withPast old) r g = withPastResult old (withVersion s r f) := by
  simp only [withVersion, State.withPast_answer]
  split
  · rfl
  · exact h _

/-- No instruction's meaning observes the responses given. -/
theorem exec_withPast (old : List Response) (e : Instr) (s : State) :
    exec e (s.withPast old) = withPastResult old (exec e s) := by
  cases e with
  | endTable => exact execEnd_withPast old s
  | str n | u8 | u16le | u16be | bits n => exact runDescriptor_withPast old _ _ s
  | skip n | pad n => exact runDescriptor_withPast old _ silent s
  | decode =>
    refine onRequest_withPast (fun r => ?_) s
    simp only [State.withPast_build, State.withPast_answer]
    split
    · rfl
    · exact withVersion_withPast (fun v => by rfl) s r
  | tableRead =>
    refine onRequest_withPast (fun r => ?_) s
    simp only [State.withPast_build, State.withPast_answer]
    split
    · rfl
    · exact withVersion_withPast (fun v => by rfl) s r

theorem stepWalk_withPast (old : List Response) (s : State) (t : Txn) :
    stepWalk (s.withPast old) t = withPastResult old (stepWalk s t) := by
  by_cases hi : s.build.maxEntries ≤ t.i
  · simp [stepWalk, hi]
  · cases hd : decodeDesc (s.fetchWord t) with
    | error x => simp [stepWalk, hi, hd]
    | ok e => simp [stepWalk, hi, hd, exec_withPast]

theorem stepRequest_withPast (old : List Response) (s : State) (r : Request) :
    stepRequest (s.withPast old) r = withPastResult old (stepRequest s r) := by
  simp only [stepRequest, State.withPast_answer]
  split
  · rfl
  · exact exec_withPast old _ s

/-- A step commutes with putting responses before those given (R29). -/
theorem step_withPast (old : List Response) (s : State) :
    step (s.withPast old) = withPastResult old (step s) := by
  cases ht : s.txn with
  | some t => rw [step_walk ht, step_walk (s := s.withPast old) ht, stepWalk_withPast]
  | none =>
    cases hq : s.requests with
    | nil => rw [step_idle ht hq, step_idle (s := s.withPast old) ht hq, withPastResult_next]
    | cons r rs => rw [step_request ht hq, step_request (s := s.withPast old) ht hq, stepRequest_withPast]

/-- Settles O44: a step commutes with putting responses before those given, whichever of its three outcomes it has. -/
theorem responsesNotObserved : Obligations.ResponsesNotObserved := by
  unfold Obligations.ResponsesNotObserved
  intro s old
  have hcomm := step_withPast old s
  cases hs : step s with
  | next s' => rwa [hs] at hcomm
  | fault f => rwa [hs] at hcomm
  | refused r => rwa [hs] at hcomm

/-! ### Meanings called out of their place (log entry 13) -/

theorem runDescriptor_without_txn {s : State} (ht : s.txn = none) (e : Instr) (f : Txn → Except Fault Txn) :
    runDescriptor e f s = .refused .noTransaction := by
  simp [runDescriptor, ht]

theorem exec_without_txn {s : State} (ht : s.txn = none) {e : Instr} (he : e.isDescriptor = true) :
    exec e s = .refused .noTransaction := by
  cases e with
  | decode | tableRead => cases he
  | endTable => simp [exec, execEnd, ht]
  | str n | u8 | u16le | u16be | bits n => exact runDescriptor_without_txn ht _ _
  | skip n | pad n => exact runDescriptor_without_txn ht _ silent

theorem onRequest_within_txn {s : State} {t : Txn} (ht : s.txn = some t) (f : Request → Result) :
    onRequest f s = .refused .transactionInProgress := by
  simp [onRequest, ht]

theorem onRequest_without_request {s : State} (ht : s.txn = none) (hq : s.requests = []) (f : Request → Result) :
    onRequest f s = .refused .noRequest := by
  simp [onRequest, ht, hq]

/-- Settles O19: every descriptor's meaning needs a working state, and both request operations need an idle block with a
request. -/
theorem outOfPlaceOperationsRefused : Obligations.OutOfPlaceOperationsRefused := by
  unfold Obligations.OutOfPlaceOperationsRefused
  intro s
  exact ⟨fun ht e he => exec_without_txn ht he,
    fun t ht => ⟨onRequest_within_txn ht _, onRequest_within_txn ht _⟩,
    fun ht hq => ⟨onRequest_without_request ht hq _, onRequest_without_request ht hq _⟩⟩

end Sys2Proof.Machine

namespace Sys2Proof

/-! ### The canonical form of an address space (R40, R41, log entry 4) -/

section Canonical

variable {w : Nat}

@[simp] theorem Memory.wfFrom_cons (a b : Nat) (x : BitVec w) (m : Memory w) :
    Memory.wfFrom a ((b, x) :: m) = true ↔ a ≤ b ∧ x ≠ Memory.blank w ∧ Memory.wfFrom (b + 1) m = true := by
  simp [Memory.wfFrom, and_assoc]

@[simp] theorem Memory.read_cons_self (b : Nat) (x : BitVec w) (m : Memory w) : Memory.read ((b, x) :: m) b = x :=
  if_pos rfl

theorem Memory.read_cons_of_ne {a b : Nat} (h : a ≠ b) (x : BitVec w) (m : Memory w) :
    Memory.read ((b, x) :: m) a = Memory.read m a :=
  if_neg h

/-- A cell that is not blank stands at or above a canonical memory's first possible address. -/
theorem Memory.le_of_read_ne_blank {m : Memory w} {a b : Nat} (h : Memory.wfFrom a m = true)
    (hb : Memory.read m b ≠ Memory.blank w) : a ≤ b :=
  Nat.le_of_not_lt fun hlt => hb (Memory.read_below h hlt)

/-- Two canonical memories with a first cell each that read alike have their first cells at one address: either first
cell is not blank, so neither can stand below the other. -/
theorem Memory.head_address_eq {m m' : Memory w} {a a' b b' : Nat} {x x' : BitVec w}
    (hwf : Memory.wfFrom a ((b, x) :: m) = true) (hwf' : Memory.wfFrom a' ((b', x') :: m') = true)
    (hread : ∀ c, Memory.read ((b, x) :: m) c = Memory.read ((b', x') :: m') c) : b = b' := by
  obtain ⟨-, hx, hm⟩ := (Memory.wfFrom_cons a b x m).mp hwf
  obtain ⟨-, hx', hm'⟩ := (Memory.wfFrom_cons a' b' x' m').mp hwf'
  have hle' : b' ≤ b :=
    Memory.le_of_read_ne_blank ((Memory.wfFrom_cons b' b' x' m').mpr ⟨le_rfl, hx', hm'⟩)
      (by rwa [← hread b, Memory.read_cons_self])
  have hle : b ≤ b' :=
    Memory.le_of_read_ne_blank ((Memory.wfFrom_cons b b x m).mpr ⟨le_rfl, hx, hm⟩)
      (by rwa [hread b', Memory.read_cons_self])
  exact le_antisymm hle hle'

/-- Canonical memories that read alike at every address are equal. -/
theorem Memory.eq_of_read_eq {m m' : Memory w} {a a' : Nat} (hwf : Memory.wfFrom a m = true)
    (hwf' : Memory.wfFrom a' m' = true) (hread : ∀ c, Memory.read m c = Memory.read m' c) : m = m' := by
  induction m generalizing m' a a' with
  | nil =>
    cases m' with
    | nil => rfl
    | cons cell' m' =>
      obtain ⟨b', x'⟩ := cell'
      obtain ⟨-, hx', -⟩ := (Memory.wfFrom_cons ..).mp hwf'
      exact absurd (by simpa using (hread b').symm) hx'
  | cons cell m ih =>
    obtain ⟨b, x⟩ := cell
    obtain ⟨-, hx, hm⟩ := (Memory.wfFrom_cons ..).mp hwf
    cases m' with
    | nil => exact absurd (by simpa using hread b) hx
    | cons cell' m' =>
      obtain ⟨b', x'⟩ := cell'
      obtain ⟨-, -, hm'⟩ := (Memory.wfFrom_cons ..).mp hwf'
      obtain rfl := Memory.head_address_eq hwf hwf' hread
      have hcell : x = x' := by simpa using hread b
      have htail : m = m' := ih hm hm' fun c => by
        by_cases hc : c = b
        · rw [hc, Memory.read_below hm (Nat.lt_succ_self b), Memory.read_below hm' (Nat.lt_succ_self b)]
        · rw [← Memory.read_cons_of_ne hc x m, hread c, Memory.read_cons_of_ne hc]
      rw [hcell, htail]

end Canonical

/-! ### Where the descriptors of a table stand (R46, R51, R85) -/

/-- A placed descriptor is one of the list, at the index and cursor of its place. -/
theorem mem_place {j c : Nat} {es : List Instr} {p : Placed} (hp : p ∈ place j c es) :
    ∃ (i : Nat) (hi : i < es.length), p = ⟨j + i, cursorAfter c (es.take i), es[i]⟩ := by
  obtain ⟨i, hi, rfl⟩ := List.getElem_of_mem hp
  rw [length_place] at hi
  exact ⟨i, hi, getElem_place j c es hi⟩

/-- The cursor never moves back (R26). -/
theorem cursorAfter_take_mono (c : Nat) (es : List Instr) {i j : Nat} (h : i ≤ j) :
    cursorAfter c (es.take i) ≤ cursorAfter c (es.take j) := by
  have hle := cursorAfter_take_le c (es.take j) i
  rwa [List.take_take, Nat.min_eq_left h] at hle

/-- WF5: the descriptors of a built block's table take up exactly its required length (R85). -/
theorem Block.cursorAfter_program (b : Block) (v : Version) :
    cursorAfter 0 (b.build.program v) = 8 * b.build.requiredLen v :=
  (Nat.mul_div_cancel' (Nat.dvd_of_mod_eq_zero (b.good v).aligned)).symm

end Sys2Proof

namespace Sys2Proof.Machine

/-- Settles O28: a write keeps the canonical form and changes one cell, and the form is determined by what it reads
as. -/
theorem memoryIsCanonical : Obligations.MemoryIsCanonical := by
  unfold Obligations.MemoryIsCanonical
  intro w m m' hwf hwf'
  exact ⟨fun a x => ⟨Memory.wf_write hwf a x, Memory.read_write_from hwf a x⟩, Memory.eq_of_read_eq hwf hwf'⟩

/-- Settles O30: a descriptor ends at the cursor after it, which is at most the cursor of every later descriptor and of
the table's end. -/
theorem descriptorsNeverOverlap : Obligations.DescriptorsNeverOverlap := by
  unfold Obligations.DescriptorsNeverOverlap
  intro b v p q hp hq hlt
  obtain ⟨i, hi, rfl⟩ := mem_place hp
  obtain ⟨j, hj, rfl⟩ := mem_place hq
  have hij : i + 1 ≤ j := by simpa using hlt
  constructor
  · rw [← cursorAfter_take_succ 0 _ hi]
    exact cursorAfter_take_mono 0 _ hij
  · rw [← cursorAfter_take_succ 0 _ hj, ← b.cursorAfter_program v]
    exact cursorAfter_take_le 0 _ (j + 1)

/-! ### What a step leaves unchanged (R44) -/

/-- Settles O43: a step does nothing, ends the walk or replaces its working state over the same version, buffer and
length, or takes the oldest request of an idle block; none of these replaces the block. -/
theorem nothingIsWritten : Obligations.NothingIsWritten := by
  unfold Obligations.NothingIsWritten
  intro s s' hstep
  rcases step_next_cases hstep with
    ⟨rfl, hidle, -⟩ | ⟨t, ht, ⟨x, rfl⟩ | ⟨t', rfl, hsame⟩⟩ | ⟨hidle, r, rs, -, ⟨x, rfl⟩ | ⟨v, -, rfl⟩⟩
  case inl => exact ⟨rfl, .inl rfl, by simp [hidle]⟩
  case inr.inl.inl => exact ⟨rfl, .inl rfl, by simp⟩
  case inr.inl.inr =>
    refine ⟨rfl, .inl rfl, fun t₁ t₂ h₁ h₂ => ?_⟩
    cases ht.symm.trans h₁
    cases h₂
    exact hsame
  case inr.inr.inl => exact ⟨rfl, .inr rfl, by simp⟩
  case inr.inr.inr => exact ⟨rfl, .inr rfl, by simp [hidle]⟩

end Sys2Proof.Machine

namespace Sys2Proof

/-! ### The fields of a word (R60, R62, R63, R69) -/

theorem opField_eq_extractLsb (w : Word) : opField w = (w.extractLsb 15 12).toNat := by
  simp [opField, slice, Nat.shiftRight_eq_div_pow]

theorem rsvField_eq_extractLsb (w : Word) : rsvField w = (w.extractLsb 11 8).toNat := by
  simp [rsvField, slice, Nat.shiftRight_eq_div_pow]

theorem countField_eq_extractLsb (w : Word) : countField w = (w.extractLsb 7 0).toNat := by
  simp [countField, slice]

theorem countField_lt (w : Word) : countField w < 256 := Nat.mod_lt _ (by decide)

/-- The word put together from an op and a count has these as its fields, and `rsv = 0`. -/
theorem fields_ofNat {op n : Nat} (hop : op < 16) (hn : n < 256) :
    opField (BitVec.ofNat 16 (4096 * op + n)) = op ∧ rsvField (BitVec.ofNat 16 (4096 * op + n)) = 0 ∧
      countField (BitVec.ofNat 16 (4096 * op + n)) = n := by
  have hlt : 4096 * op + n < 2 ^ 16 := by omega
  simp only [opField, rsvField, countField, slice, BitVec.toNat_ofNat, Nat.mod_eq_of_lt hlt]
  omega

/-- The converse of `decodeDesc_eq_ok`: these fields are all that the decoder asks of a word. -/
theorem decodeDesc_of_fields {w : Word} {e : Instr} (hop : opField w < 8) (hrsv : rsvField w = 0)
    (hkind : kindOf (opField w) (countField w) = some e) (hwf : e.wf = true) : decodeDesc w = .ok e := by
  simp [decodeDesc, Nat.not_le.mpr hop, hrsv, hkind, hwf]

theorem decodeDesc_isOk_iff (w : Word) :
    (∃ e, decodeDesc w = .ok e) ↔
      opField w < 8 ∧ rsvField w = 0 ∧ ∃ e, kindOf (opField w) (countField w) = some e ∧ e.wf = true := by
  constructor
  · rintro ⟨e, he⟩
    obtain ⟨hop, hrsv, hkind, hwf⟩ := decodeDesc_eq_ok he
    exact ⟨hop, hrsv, e, hkind, hwf⟩
  · rintro ⟨hop, hrsv, e, hkind, hwf⟩
    exact ⟨e, decodeDesc_of_fields hop hrsv hkind hwf⟩

theorem decodeDesc_isError_iff (w : Word) : (∃ r, decodeDesc w = .error r) ↔ ¬ ∃ e, decodeDesc w = .ok e := by
  cases decodeDesc w <;> simp

theorem decode_descWord {op n : Nat} {e : Instr} (hop : op < 8) (hn : n < 256) (hkind : kindOf op n = some e)
    (hwf : e.wf = true) : decode (descWord op n) = .ok e := by
  obtain ⟨hopf, hrsvf, hcountf⟩ := fields_ofNat (hop.trans (by decide)) hn
  exact decodeDesc_of_fields (by rwa [hopf]) hrsvf (by rwa [hopf, hcountf]) hwf

/-- R69 (c): the counts `n` outside the range that R63 gives the kind of `op`. -/
def countOutOfRange (op n : Nat) : Prop :=
  ((op = 0 ∨ op = 2 ∨ op = 3 ∨ op = 4) ∧ n ≠ 0) ∨ ((op = 1 ∨ op = 6) ∧ n = 0) ∨
    (op = 5 ∧ (n = 0 ∨ 8 < n)) ∨ (op = 7 ∧ (n = 0 ∨ 7 < n))

theorem illegalWord_iff (w : Word) :
    illegalWord w ↔ 8 ≤ opField w ∨ rsvField w ≠ 0 ∨ countOutOfRange (opField w) (countField w) := by
  rw [opField_eq_extractLsb, rsvField_eq_extractLsb, countField_eq_extractLsb]
  rfl

/-- A kind whose width is implied takes `n = 0` only (R63). -/
theorem exists_wf_of_implied {op n : Nat} {e : Instr} (hop : op = 0 ∨ op = 2 ∨ op = 3 ∨ op = 4)
    (hzero : kindOf op 0 = some e) (hwf : e.wf = true) :
    (∃ e, kindOf op n = some e ∧ e.wf = true) ↔ n = 0 := by
  cases n with
  | zero => exact ⟨fun _ => rfl, fun _ => ⟨e, hzero, hwf⟩⟩
  | succ n => rcases hop with rfl | rfl | rfl | rfl <;> simp [kindOf]

theorem exists_wf_of_kindOf {op n : Nat} {e : Instr} (hkind : kindOf op n = some e) :
    (∃ e, kindOf op n = some e ∧ e.wf = true) ↔ e.wf = true := by
  simp [hkind]

/-- An op that is not reserved has a well-formed kind exactly for the counts in its range. -/
theorem exists_wf_kindOf_iff {op n : Nat} (hop : op < 8) (hn : n < 256) :
    (∃ e, kindOf op n = some e ∧ e.wf = true) ↔ ¬ countOutOfRange op n := by
  have hkinds : (op = 0 ∨ op = 2 ∨ op = 3 ∨ op = 4) ∨ (op = 1 ∨ op = 5 ∨ op = 6 ∨ op = 7) := by omega
  rcases hkinds with (rfl | rfl | rfl | rfl) | (rfl | rfl | rfl | rfl)
  iterate 4 · rw [exists_wf_of_implied (by decide) rfl rfl]; simp [countOutOfRange]
  iterate 4 · rw [exists_wf_of_kindOf rfl]; simp [countOutOfRange, Instr.wf]; omega

end Sys2Proof

namespace Sys2Proof.Machine

/-- Settles O1: each word's fields are those of the instruction it stands for, by evaluation. -/
theorem specWordsDecode : Obligations.SpecWordsDecode :=
  ⟨rfl, rfl, rfl, rfl, rfl, rfl, rfl, rfl, rfl, rfl, rfl, rfl⟩

/-- Settles O2: the fields of an encoded descriptor are its op and its count, which name it again; the count of a
well-formed one fits in its 8 bits. -/
theorem decodeEncodeRoundTrip : Obligations.DecodeEncodeRoundTrip := by
  unfold Obligations.DecodeEncodeRoundTrip
  intro i hwf
  cases i with
  | endTable | u8 | u16le | u16be => exact decode_descWord (by decide) (by decide) rfl rfl
  | str n | bits n | skip n | pad n =>
    have hn : n < 256 := by
      simp only [Instr.wf, Bool.and_eq_true, decide_eq_true_eq] at hwf
      omega
    exact decode_descWord (by decide) hn rfl hwf
  | decode | tableRead => rfl

/-- Settles O4: a word fails to decode when its op is reserved, its `rsv` is not zero, or its kind has no such count. -/
theorem illegalWordsExactly : Obligations.IllegalWordsExactly := by
  unfold Obligations.IllegalWordsExactly
  intro w
  rw [decodeDesc_isError_iff, decodeDesc_isOk_iff, illegalWord_iff]
  by_cases hop : opField w < 8
  · rw [exists_wf_kindOf_iff hop (countField_lt w)]
    simp only [hop, Nat.not_le.mpr hop, true_and, false_or, not_and_or, not_not, ne_eq]
  · simp [hop, Nat.not_lt.mp hop]

/-! ### The fields of a response (R23, R68, R140, R143) -/

/-- R68: no two statuses share a code. -/
theorem Status.code_inj {x y : Status} : x.code = y.code ↔ x = y := by
  cases x <;> cases y <;> decide

theorem Response.no_result_of_not_ok {x : Response} (h : x.status ≠ .ok) :
    x.recordField = none ∧ x.nfieldsField = none ∧ x.wordField = none := by
  cases x with
  | okDecode | okTableRead => exact absurd rfl h
  | truncatedInput | badVersion | badRequest => exact ⟨rfl, rfl, rfl⟩

theorem Response.truncation_fields {x : Response} (h : x.status = .truncatedInput) :
    x.lastFieldField.isSome = true ∧ x.failEntryField.isSome = true := by
  cases x with
  | truncatedInput => exact ⟨rfl, rfl⟩
  | okDecode | okTableRead | badVersion | badRequest => cases h

theorem Response.no_truncation_fields {x : Response} (h : x.status ≠ .truncatedInput) :
    x.lastFieldField = none ∧ x.failEntryField = none := by
  cases x with
  | truncatedInput => exact absurd rfl h
  | okDecode | okTableRead | badVersion | badRequest => exact ⟨rfl, rfl⟩

/-- An OK response has the result of a DECODE, a record with its count, or that of a TABLE_READ, a word. -/
theorem Response.result_of_ok {x : Response} (h : x.status = .ok) :
    x.recordField.isSome = x.nfieldsField.isSome ∧ (x.recordField.isSome = true ↔ x.wordField = none) := by
  cases x with
  | okDecode | okTableRead => simp [recordField, nfieldsField, wordField]
  | truncatedInput | badVersion | badRequest => cases h

/-- Settles O49: the codes are one to one, and each constructor of a response has just the fields of its status. -/
theorem statusDecidesFields : Obligations.StatusDecidesFields := by
  unfold Obligations.StatusDecidesFields
  intro x
  exact ⟨Status.code_inj (y := .ok), Status.code_inj (y := .truncatedInput), Status.code_inj (y := .badVersion),
    Status.code_inj (y := .badRequest), Response.no_result_of_not_ok, Response.truncation_fields,
    Response.no_truncation_fields, Response.result_of_ok⟩

end Sys2Proof.Machine

namespace Sys2Proof

/-! ### Descriptors that stand where they may (R83) -/

/-- From cursor `c` on, each descriptor is one the walk runs and stands where it may. -/
def WellPlaced : Nat → List Instr → Prop
  | _, [] => True
  | c, e :: es => (e.inWalk = true ∧ e.defect c = none) ∧ WellPlaced (c + e.width) es

@[simp] theorem wellPlaced_nil (c : Nat) : WellPlaced c [] := trivial

@[simp] theorem wellPlaced_cons (c : Nat) (e : Instr) (es : List Instr) :
    WellPlaced c (e :: es) ↔ (e.inWalk = true ∧ e.defect c = none) ∧ WellPlaced (c + e.width) es := Iff.rfl

@[simp] theorem wellPlaced_append (c : Nat) (es fs : List Instr) :
    WellPlaced c (es ++ fs) ↔ WellPlaced c es ∧ WellPlaced (cursorAfter c es) fs := by
  induction es generalizing c with
  | nil => simp
  | cons e es ih => simp [ih, and_assoc]

theorem WellPlaced.getElem {c : Nat} {es : List Instr} (h : WellPlaced c es) {j : Nat} (hj : j < es.length) :
    es[j].inWalk = true ∧ es[j].defect (cursorAfter c (es.take j)) = none := by
  induction es generalizing c j with
  | nil => simp at hj
  | cons e es ih =>
    obtain ⟨hhead, htail⟩ := (wellPlaced_cons c e es).mp h
    cases j with
    | zero => exact hhead
    | succ j => exact ih htail (Nat.lt_of_succ_lt_succ hj)

/-! ### The pseudo-descriptors (R72) -/

/-- The descriptors pass exactly `n` bits from cursor `c` on, each stands where it may, and none of them emits. -/
structure IsGap (c n : Nat) (es : List Instr) : Prop where
  cursor : cursorAfter c es = c + n
  placed : WellPlaced c es
  noOutput : ∀ e ∈ es, e.isOutput = false

theorem IsGap.nil (c : Nat) : IsGap c 0 [] := ⟨rfl, trivial, by simp⟩

/-- Gaps one after the other are a gap. -/
theorem IsGap.append {c m n : Nat} {es fs : List Instr} (hes : IsGap c m es) (hfs : IsGap (c + m) n fs) :
    IsGap c (m + n) (es ++ fs) := by
  refine ⟨?_, ?_, fun e he => (List.mem_append.mp he).elim (hes.noOutput e) (hfs.noOutput e)⟩
  · rw [cursorAfter_append, hes.cursor, hfs.cursor, Nat.add_assoc]
  · rw [wellPlaced_append, hes.cursor]
    exact ⟨hes.placed, hfs.placed⟩

theorem isGap_pad {c n : Nat} (hpos : 1 ≤ n) (hn : n ≤ 7) (hin : c % 8 + n ≤ 8) : IsGap c n [.pad n] := by
  refine ⟨rfl, ?_, by simp [Instr.isOutput]⟩
  simp [Instr.inWalk, Instr.defect, Instr.wf, hpos, hn, hin]

theorem isGap_skip {c n : Nat} (hpos : 1 ≤ n) (hn : n ≤ 255) (hc : c % 8 = 0) : IsGap c (8 * n) [.skip n] := by
  refine ⟨rfl, ?_, by simp [Instr.isOutput]⟩
  simp [Instr.inWalk, Instr.defect, Instr.wf, hpos, hn, hc]

theorem isGap_replicate_skip {c : Nat} (hc : c % 8 = 0) (k : Nat) :
    IsGap c (8 * (255 * k)) (List.replicate k (.skip 255)) := by
  induction k generalizing c with
  | zero => exact IsGap.nil c
  | succ k ih =>
    have hfirst : IsGap c (8 * 255) [.skip 255] := isGap_skip (by decide) le_rfl hc
    have hsum : 8 * (255 * (k + 1)) = 8 * 255 + 8 * (255 * k) := by omega
    rw [hsum]
    exact hfirst.append (ih (by omega))

theorem isGap_expandSkip {c : Nat} (hc : c % 8 = 0) (n : Nat) : IsGap c (8 * n) (expandSkip n) := by
  have hrest : IsGap (c + 8 * (255 * (n / 255))) (8 * (n % 255)) (if n % 255 ≠ 0 then [.skip (n % 255)] else []) := by
    split
    next hne => exact isGap_skip (by omega) (by omega) (by omega)
    next hzero => rw [not_not.mp hzero]; exact IsGap.nil _
  have hsum : 8 * n = 8 * (255 * (n / 255)) + 8 * (n % 255) := by omega
  rw [hsum, expandSkip]
  exact (isGap_replicate_skip hc _).append hrest

/-- A pad of `n` bits, nothing for `n = 0`, inside one byte. -/
theorem isGap_padUpTo {c n : Nat} (hn : n ≤ 7) (hin : c % 8 + n ≤ 8) : IsGap c n (if n ≠ 0 then [.pad n] else []) := by
  split
  next hne => exact isGap_pad (Nat.pos_of_ne_zero hne) hn hin
  next hzero => rw [not_not.mp hzero]; exact IsGap.nil c

/-- The first pad of a `skipbits` ends at a byte boundary or has passed all its bits; whole bytes start there, and the
bits left over start a byte. -/
theorem isGap_expandSkipbits (c n : Nat) : IsGap c n (expandSkipbits c n) := by
  simp only [expandSkipbits, gt_iff_lt, Nat.pos_iff_ne_zero]
  generalize hh : (if c % 8 ≠ 0 then min n (8 - c % 8) else 0) = h
  have hhead : h ≤ n ∧ h ≤ 7 ∧ c % 8 + h ≤ 8 ∧ (h = n ∨ (c + h) % 8 = 0) := by
    split at hh <;> omega
  obtain ⟨hle, hseven, hin, hstop⟩ := hhead
  have hfirst : IsGap c h (if h ≠ 0 then [.pad h] else []) := isGap_padUpTo hseven hin
  obtain rfl | haligned := hstop
  · simpa [expandSkip] using hfirst
  · have hbytes := isGap_expandSkip haligned ((n - h) / 8)
    have hlast : IsGap (c + (h + 8 * ((n - h) / 8))) ((n - h) % 8)
        (if (n - h) % 8 ≠ 0 then [.pad ((n - h) % 8)] else []) := isGap_padUpTo (by omega) (by omega)
    have hall := (hfirst.append hbytes).append hlast
    rwa [show h + 8 * ((n - h) / 8) + (n - h) % 8 = n by omega] at hall

/-- `align` passes the bits up to the next byte boundary. -/
theorem isGap_expandAlign (c : Nat) : IsGap c ((8 - c % 8) % 8) (expandAlign c) := by
  rw [expandAlign]
  split
  next haligned => rw [haligned]; exact IsGap.nil c
  next hinside => rw [Nat.mod_eq_of_lt (by omega)]; exact isGap_pad (by omega) (by omega) (by omega)

/-! ### Listings (R73) -/

theorem assembleFrom_append (c : Nat) (xs ys : List AsmItem) :
    assembleFrom c (xs ++ ys) = assembleFrom c xs ++ assembleFrom (cursorAfter c (assembleFrom c xs)) ys := by
  induction xs generalizing c with
  | nil => rfl
  | cons x xs ih => simp [assembleFrom, ih]

/-- The items assembled at cursor `c` give descriptors that stand where they may and end at cursor `d`. -/
structure AssemblesTo (c : Nat) (xs : List AsmItem) (d : Nat) : Prop where
  placed : WellPlaced c (assembleFrom c xs)
  cursor : cursorAfter c (assembleFrom c xs) = d

theorem AssemblesTo.nil (c : Nat) : AssemblesTo c [] c := ⟨trivial, rfl⟩

theorem AssemblesTo.append {c d d' : Nat} {xs ys : List AsmItem} (hxs : AssemblesTo c xs d)
    (hys : AssemblesTo d ys d') : AssemblesTo c (xs ++ ys) d' := by
  constructor
  · rw [assembleFrom_append, wellPlaced_append, hxs.cursor]
    exact ⟨hxs.placed, hys.placed⟩
  · rw [assembleFrom_append, cursorAfter_append, hxs.cursor, hys.cursor]

theorem assemblesTo_item {c d : Nat} {x : AsmItem} (hplaced : WellPlaced c (x.expand c))
    (hcursor : cursorAfter c (x.expand c) = d) : AssemblesTo c [x] d := by
  constructor <;> simpa [assembleFrom]

theorem assemblesTo_desc {c : Nat} {e : Instr} (hwalk : e.inWalk = true) (hdefect : e.defect c = none) :
    AssemblesTo c [.desc e] (c + e.width) :=
  assemblesTo_item ⟨⟨hwalk, hdefect⟩, trivial⟩ rfl

theorem assemblesTo_align (c : Nat) : AssemblesTo c [.align] (c + (8 - c % 8) % 8) :=
  assemblesTo_item (isGap_expandAlign c).placed (isGap_expandAlign c).cursor

/-- The gap between two cursors. -/
theorem assemblesTo_gapItems {c d : Nat} (h : c ≤ d) : AssemblesTo c (gapItems (d - c)) d := by
  rw [gapItems]
  split
  next hzero =>
    obtain rfl : c = d := by omega
    exact AssemblesTo.nil c
  next =>
    have hgap := isGap_expandSkipbits c (d - c)
    exact assemblesTo_item hgap.placed (by rw [AsmItem.expand, hgap.cursor, Nat.add_sub_cancel' h])

/-- If the field is a string, it starts at a byte boundary. -/
def ListingField.StringOnByte (f : ListingField) : Prop := ∀ m, f.kind = .string m → f.pos % 8 = 0

theorem ListingField.start_mod (f : ListingField) : f.start % 8 = f.pos % 8 := Nat.mul_add_mod _ _ _

/-- R73: a field becomes a string of legal length, a whole number at the top of a byte, or bits inside one byte. -/
theorem ListingField.descriptor_cases {f : ListingField} {e : Instr} (h : f.descriptor = .ok e) :
    (∃ m, f.kind = .string m ∧ 1 ≤ m ∧ m ≤ 255 ∧ e = .str m) ∨
      (f.pos = 0 ∧ (e = .u8 ∨ e = .u16le ∨ e = .u16be)) ∨ ∃ n, 1 ≤ n ∧ f.pos + n ≤ 8 ∧ e = .bits n := by
  unfold descriptor at h
  split at h
  next m hkind =>
    split at h
    next hm => cases h; exact .inl ⟨m, hkind, hm.1, hm.2, rfl⟩
    next => cases h
  next =>
    split at h
    next hbyte => cases h; exact .inr (.inl ⟨hbyte.2, .inl rfl⟩)
    next =>
      split at h
      next hin => cases h; exact .inr (.inr ⟨_, hin.1, hin.2, rfl⟩)
      next => cases h
  next =>
    split at h
    next hpair =>
      split at h
      next => cases h; exact .inr (.inl ⟨hpair.2, .inr (.inr rfl)⟩)
      next => cases h; exact .inr (.inl ⟨hpair.2, .inr (.inl rfl)⟩)
      next => cases h
    next =>
      split at h
      next hin => cases h; exact .inr (.inr ⟨_, hin.1, hin.2, rfl⟩)
      next => cases h

/-- The descriptor of a field stands where it may at the field's start. -/
theorem ListingField.descriptor_placed {f : ListingField} {e : Instr} (h : f.descriptor = .ok e)
    (hstr : f.StringOnByte) : e.inWalk = true ∧ e.defect f.start = none := by
  have hmod := f.start_mod
  rcases descriptor_cases h with ⟨m, hkind, hm, hm', rfl⟩ | ⟨hpos, rfl | rfl | rfl⟩ | ⟨n, hn, hin, rfl⟩
  · have hstart : f.start % 8 = 0 := hmod.trans (hstr m hkind)
    simp [Instr.inWalk, Instr.defect, Instr.wf, hm, hm', hstart]
  · simp [Instr.inWalk, Instr.defect, Instr.wf, hmod, hpos]
  · simp [Instr.inWalk, Instr.defect, Instr.wf, hmod, hpos]
  · simp [Instr.inWalk, Instr.defect, Instr.wf, hmod, hpos]
  · have hn' : n ≤ 8 := by omega
    have hstart : f.start % 8 + n ≤ 8 := by omega
    simp [Instr.inWalk, Instr.defect, Instr.wf, hn, hn', hstart]

/-- The sorted fields of a listing assemble to descriptors that stand where they may: before each field stands the gap up
to its start. -/
theorem transcribeFrom_assembles {fs : List ListingField} {c d : Nat} {xs : List AsmItem}
    (h : transcribeFrom c fs = .ok (xs, d)) (hstr : ∀ f ∈ fs, f.StringOnByte) : AssemblesTo c xs d := by
  induction fs generalizing c xs with
  | nil => cases h; exact AssemblesTo.nil _
  | cons f fs ih =>
    rw [transcribeFrom] at h
    split at h
    · cases h
    next hstart =>
      split at h
      · cases h
      next e hdesc =>
        split at h
        · cases h
        next ys d' hrest =>
          cases h
          obtain ⟨hwalk, hdefect⟩ := ListingField.descriptor_placed hdesc (hstr f List.mem_cons_self)
          exact ((assemblesTo_gapItems (Nat.not_lt.mp hstart)).append (assemblesTo_desc hwalk hdefect)).append
            (ih hrest fun g hg => hstr g (List.mem_cons_of_mem f hg))

theorem insertField_perm (f : ListingField) (fs : List ListingField) : (insertField f fs).Perm (f :: fs) := by
  induction fs with
  | nil => rfl
  | cons g fs ih =>
    rw [insertField]
    split
    · rfl
    · exact (ih.cons g).trans (.swap f g fs)

/-- Sorting a listing changes only the order of its fields. -/
theorem sortFields_perm (fs : List ListingField) : (sortFields fs).Perm fs := by
  induction fs with
  | nil => rfl
  | cons f fs ih => exact (insertField_perm f (sortFields fs)).trans (ih.cons f)

/-- What a transcribed listing is: items that assemble to well-placed descriptors, aligned, then END. -/
theorem transcribeFields_assembles {fs : List ListingField} {total : Option Nat} {es : List Instr}
    (h : transcribeFields fs total = .ok es) (hstr : ∀ f ∈ fs, f.StringOnByte) :
    ∃ (xs : List AsmItem) (c : Nat), AssemblesTo 0 xs c ∧ es = assembleFrom 0 (xs ++ [.align, .desc .endTable]) := by
  unfold transcribeFields at h
  split at h
  · cases h
  next xs c hfields =>
    have hxs := transcribeFrom_assembles hfields fun f hf => hstr f ((sortFields_perm fs).mem_iff.mp hf)
    split at h
    · cases h
      exact ⟨xs, c, hxs, rfl⟩
    next n =>
      split at h
      · cases h
      next hfit =>
        cases h
        exact ⟨_, 8 * n, hxs.append (assemblesTo_gapItems (Nat.not_lt.mp hfit)), rfl⟩

/-! ### Positions counted from the LSB (R73, log entry 20) -/

theorem posFromLsb_of_le {w pLsb : Nat} (h : w + pLsb ≤ 8) : posFromLsb w pLsb = some (8 - w - pLsb) := if_pos h

theorem posFromLsb_of_whole_bytes {w pLsb : Nat} (h : 8 < w + pLsb) (hw : w % 8 = 0) (hp : pLsb = 0) :
    posFromLsb w pLsb = some 0 := by
  rw [posFromLsb, if_neg (Nat.not_le.mpr h), if_pos ⟨hw, hp⟩]

theorem posFromLsb_eq_none {w pLsb : Nat} (h : 8 < w + pLsb) (hout : w % 8 ≠ 0 ∨ pLsb ≠ 0) :
    posFromLsb w pLsb = none := by
  rw [posFromLsb, if_neg (Nat.not_le.mpr h), if_neg (not_and_or.mpr hout)]

/-- A field of whole bytes at the bottom of its last byte starts at a byte boundary. -/
theorem posFromLsb_whole_bytes_mod {m p : Nat} (h : posFromLsb (8 * m) 0 = some p) : p % 8 = 0 := by
  by_cases hin : 8 * m + 0 ≤ 8
  · cases (posFromLsb_of_le hin).symm.trans h
    omega
  · cases (posFromLsb_of_whole_bytes (Nat.not_le.mp hin) (Nat.mul_mod_right 8 m) rfl).symm.trans h
    rfl

/-- A string at position 0 from either end starts at a byte boundary. -/
theorem ListingField.msbFirst_stringOnByte {origin : BitOrigin} {f g : ListingField} (h : f.msbFirst origin = .ok g)
    (hstr : ∀ m, f.kind = .string m → f.pos = 0) : g.StringOnByte := by
  unfold msbFirst at h
  split at h
  · cases h
    intro m hkind
    rw [hstr m hkind]
  · split at h
    next p hp =>
      cases h
      intro m hkind
      have hkind' : f.kind = .string m := hkind
      simp only [bits, hkind', hstr m hkind'] at hp
      exact posFromLsb_whole_bytes_mod hp
    next => cases h

theorem msbFirstFields_stringOnByte {origin : BitOrigin} {fs gs : List ListingField}
    (h : msbFirstFields origin fs = .ok gs) (hstr : ∀ f ∈ fs, ∀ m, f.kind = .string m → f.pos = 0) :
    ∀ g ∈ gs, g.StringOnByte := by
  induction fs generalizing gs with
  | nil => cases h; simp
  | cons f fs ih =>
    rw [msbFirstFields] at h
    split at h
    · cases h
    next g hg =>
      split at h
      · cases h
      next gs' hgs =>
        cases h
        exact List.forall_mem_cons.mpr ⟨ListingField.msbFirst_stringOnByte hg (hstr f List.mem_cons_self),
          ih hgs fun f' hf' => hstr f' (List.mem_cons_of_mem f hf')⟩

end Sys2Proof

namespace Sys2Proof.Machine

/-- Settles O50: the expansion is a gap of `N` bits. -/
theorem skipbitsMovesExactly : Obligations.SkipbitsMovesExactly := by
  unfold Obligations.SkipbitsMovesExactly
  intro c n
  have hgap := isGap_expandSkipbits c n
  refine ⟨hgap.cursor, fun j hj => ?_⟩
  obtain ⟨hwalk, hdefect⟩ := hgap.placed.getElem hj
  exact ⟨hwalk, hgap.noOutput _ (List.getElem_mem hj), hdefect⟩

/-- Settles O51: the fields of the listing with the gaps between them stand where they may, `align` brings the cursor to
a byte boundary, and END follows it. -/
theorem transcribedLayoutIsPlaced : Obligations.TranscribedLayoutIsPlaced := by
  unfold Obligations.TranscribedLayoutIsPlaced
  intro origin fs total es h hstr
  unfold transcribe at h
  split at h
  · cases h
  next gs hgs =>
    obtain ⟨xs, c, hxs, rfl⟩ := transcribeFields_assembles h (msbFirstFields_stringOnByte hgs hstr)
    have haligned := hxs.append (assemblesTo_align c)
    refine ⟨assembleFrom 0 (xs ++ [.align]), ?_, ?_, fun j hj => haligned.placed.getElem hj⟩
    · rw [List.append_cons xs .align [.desc .endTable], assembleFrom_append]
      rfl
    · rw [haligned.cursor]
      omega

/-- Settles O52: inside one byte the subtractions are exact; outside it the two cases of log entry 20 remain. -/
theorem lsbPositionsConvert : Obligations.LsbPositionsConvert := by
  unfold Obligations.LsbPositionsConvert
  exact fun w pLsb => ⟨fun h => ⟨_, posFromLsb_of_le h, by omega⟩, posFromLsb_of_whole_bytes, posFromLsb_eq_none⟩

end Sys2Proof.Machine

namespace Sys2Proof

/-! ### A descriptor is its word (R60, R67, R84) -/

/-- The encoder undoes the naming of a kind by its op and count (R61). -/
theorem encode_of_kindOf {op n : Nat} {e : Instr} (h : kindOf op n = some e) : encode e = descWord op n := by
  unfold kindOf at h
  split at h <;> cases h <;> rfl

/-- With `rsv = 0` a word is put together from its op and its count (R60). -/
theorem descWord_fields {w : Word} (hrsv : rsvField w = 0) : descWord (opField w) (countField w) = .desc w := by
  have hw : 4096 * opField w + countField w = w.toNat := by rw [word_eq_fields w, hrsv, Nat.mul_zero, Nat.add_zero]
  rw [descWord, hw, BitVec.ofNat_toNat, BitVec.setWidth_eq]

theorem encode_of_decodeDesc {w : Word} {e : Instr} (h : decodeDesc w = .ok e) : encode e = .desc w := by
  obtain ⟨-, hrsv, hkind, -⟩ := decodeDesc_eq_ok h
  rw [encode_of_kindOf hkind, descWord_fields hrsv]

/-- The two request kinds that are not reserved (R67). -/
theorem decodeReq_eq_ok {op : BitVec 2} {e : Instr} (h : decodeReq op = .ok e) :
    (op = 0b00#2 ∧ e = .decode) ∨ (op = 0b01#2 ∧ e = .tableRead) := by
  unfold decodeReq at h
  split at h
  next hop => cases h; exact .inl ⟨hop, rfl⟩
  next =>
    split at h
    next hop => cases h; exact .inr ⟨hop, rfl⟩
    next => cases h

theorem toOption_decodeDesc_isNone_iff (w : Word) : (decodeDesc w).toOption.isNone = true ↔ illegalWord w := by
  rw [← Machine.illegalWordsExactly w]
  cases decodeDesc w <;> simp [Except.toOption]

theorem ne_zero_of_illegalWord {w : Word} (h : illegalWord w) : w ≠ 0x0000#16 := by
  rintro rfl
  simp [illegalWord] at h

/-! ### Where a descriptor may stand (R47, R83) -/

/-- The kinds that start at a byte boundary (WF3). -/
def Instr.ByteSized (e : Instr) : Prop :=
  e = .u8 ∨ e = .u16le ∨ e = .u16be ∨ (∃ n, e = .str n) ∨ ∃ n, e = .skip n

/-- The kinds of `n` bits that stay inside one byte (WF4). -/
def Instr.SubByte (e : Instr) (n : Nat) : Prop := e = .bits n ∨ e = .pad n

theorem Instr.ByteSized.isDescriptor {e : Instr} (h : e.ByteSized) : e.isDescriptor = true := by
  rcases h with rfl | rfl | rfl | ⟨n, rfl⟩ | ⟨n, rfl⟩ <;> rfl

theorem Instr.SubByte.isDescriptor {e : Instr} {n : Nat} (h : e.SubByte n) : e.isDescriptor = true := by
  rcases h with rfl | rfl <;> rfl

theorem Instr.isDescriptor_of_isOutput {e : Instr} (h : e.isOutput = true) : e.isDescriptor = true := by
  cases e with
  | decode | tableRead => cases h
  | _ => rfl

/-- The descriptors before END are of one of these kinds. -/
theorem Instr.byteSized_or_subByte {e : Instr} (h : e.inWalk = true) : e.ByteSized ∨ ∃ n, e.SubByte n := by
  cases e with
  | endTable | decode | tableRead => cases h
  | str n | u8 | u16le | u16be | skip n => exact .inl (by simp [ByteSized])
  | bits n | pad n => exact .inr ⟨n, by simp [SubByte]⟩

theorem Instr.defect_of_not_wf {e : Instr} (h : e.wf = false) (c : Nat) : e.defect c = some .wf1 := if_pos h

theorem Instr.ByteSized.defect {e : Instr} (h : e.ByteSized) (hwf : e.wf = true) (c : Nat) :
    e.defect c = if c % 8 = 0 then none else some .wf3 := by
  rcases h with rfl | rfl | rfl | ⟨n, rfl⟩ | ⟨n, rfl⟩ <;> simp [Instr.defect, hwf]

theorem Instr.SubByte.defect {e : Instr} {n : Nat} (h : e.SubByte n) (hwf : e.wf = true) (c : Nat) :
    e.defect c = if c % 8 + n ≤ 8 then none else some .wf4 := by
  rcases h with rfl | rfl <;> simp [Instr.defect, hwf]

/-- WF3 and WF4 are all that a well-formed descriptor before END is asked. -/
theorem Instr.defect_eq_none_iff {e : Instr} (hwalk : e.inWalk = true) (hwf : e.wf = true) (c : Nat) :
    e.defect c = none ↔ (e.ByteSized → c % 8 = 0) ∧ ∀ n, e.SubByte n → c % 8 + n ≤ 8 := by
  constructor
  · refine fun h => ⟨fun hkind => ?_, fun n hkind => ?_⟩
    · simpa [hkind.defect hwf] using h
    · simpa [hkind.defect hwf] using h
  · rintro ⟨hbytes, hbits⟩
    rcases byteSized_or_subByte hwalk with hkind | ⟨n, hkind⟩
    · rw [hkind.defect hwf, if_pos (hbytes hkind)]
    · rw [hkind.defect hwf, if_pos (hbits n hkind)]

theorem Instr.defect_endTable (c : Nat) : Instr.defect .endTable c = if c % 8 = 0 then none else some .wf5 := rfl

/-! ### The words before END (R83) -/

theorem Table.read_ne_zero_of_lt {T : Table} {n i : Nat} (hi : i < (T.entryWords n).length) :
    Memory.read T i ≠ 0x0000#16 := by
  have hmem : (T.entryWords n)[i] ∈ (T.slots n).takeWhile (fun w => w != 0x0000#16) := List.getElem_mem hi
  have hne := List.mem_takeWhile_imp hmem
  rw [Table.getElem_entryWords T n hi] at hne
  simpa using hne

/-- A slot is before the first END when it and no slot below it holds END. -/
theorem Table.lt_length_entryWords {T : Table} {n j : Nat} (hj : j < n)
    (hne : ∀ i, i ≤ j → Memory.read T i ≠ 0x0000#16) : j < (T.entryWords n).length := by
  by_contra hge
  exact hne _ (Nat.not_lt.mp hge) (T.read_at_end n (by omega))

/-- An END at slot `m` bounds the entries. -/
theorem Table.length_entryWords_le_of_end {T : Table} {m : Nat} (n : Nat) (hend : Memory.read T m = 0x0000#16) :
    (T.entryWords n).length ≤ m :=
  Nat.le_of_not_lt fun hlt => Table.read_ne_zero_of_lt hlt hend

/-- The least slot that holds END is the number of entries (R83). -/
theorem Table.length_entryWords_eq {T : Table} {n m : Nat} (hm : m < n) (hend : Memory.read T m = 0x0000#16)
    (hne : ∀ i, i < m → Memory.read T i ≠ 0x0000#16) : (T.entryWords n).length = m := by
  refine le_antisymm (Table.length_entryWords_le_of_end n hend) (Nat.le_of_not_lt fun hlt => ?_)
  exact hne _ hlt (T.read_at_end n (hlt.trans hm))

/-! ### The first failing check (R83, log entry 9) -/

theorem Table.check_eq_wf2 {T : Table} {maxEntries : Nat} (h : maxEntries ≤ (T.entryWords maxEntries).length)
    (maxLen maxFields : Nat) : T.check maxLen maxEntries maxFields = some (.wf2, maxEntries) := if_pos h

theorem Table.check_eq_wf1 {T : Table} {maxEntries j : Nat} (hends : (T.entryWords maxEntries).length < maxEntries)
    (hj : (T.entryWords maxEntries).findIdx? (fun w => (decodeDesc w).toOption.isNone) = some j)
    (maxLen maxFields : Nat) : T.check maxLen maxEntries maxFields = some (.wf1, j) := by
  simp [Table.check, Nat.not_le.mpr hends, hj]

/-- The first illegal word before END fails WF1 at its index. -/
theorem Table.check_of_illegalWord {T : Table} {maxEntries j m : Nat} (hjm : j < m) (hm : m < maxEntries)
    (hend : Memory.read T m = 0x0000#16)
    (hlegal : ∀ i, i < j → Memory.read T i ≠ 0x0000#16 ∧ ¬ illegalWord (Memory.read T i))
    (hill : illegalWord (Memory.read T j)) (maxLen maxFields : Nat) :
    T.check maxLen maxEntries maxFields = some (.wf1, j) := by
  have hends : (T.entryWords maxEntries).length < maxEntries :=
    Nat.lt_of_le_of_lt (Table.length_entryWords_le_of_end maxEntries hend) hm
  have hj : j < (T.entryWords maxEntries).length :=
    Table.lt_length_entryWords (hjm.trans hm) fun i hi =>
      (Nat.lt_or_eq_of_le hi).elim (fun hlt => (hlegal i hlt).1) fun heq => heq ▸ ne_zero_of_illegalWord hill
  refine Table.check_eq_wf1 hends (List.findIdx?_eq_some_iff_getElem.mpr ⟨hj, ?_, fun i hi => ?_⟩) maxLen maxFields
  · rwa [toOption_decodeDesc_isNone_iff, Table.getElem_entryWords]
  · rw [toOption_decodeDesc_isNone_iff, Table.getElem_entryWords]
    exact (hlegal i hi).2

/-- Parameters with a table that fails a check are not built (R163). -/
theorem Build.construct_error_of_check {b : Build} {v : Version} {x : WfCheck × Nat} (h : b.check v = some x) :
    ∃ r, b.construct = .error r := by
  cases hr : b.refusal with
  | some r => exact ⟨r, Build.construct_of_refusal hr⟩
  | none =>
    have hnone := Build.check_eq_none (Build.wf_iff_refusal.mpr hr) v
    rw [hnone] at h
    cases h

/-! ### Tables that pass every check (R83) -/

/-- From END on, every slot holds `0x0000` (R21). -/
theorem Table.Good.read_from_end {T : Table} {maxLen maxEntries maxFields i : Nat}
    (G : T.Good maxLen maxEntries maxFields) (hi : (T.program maxEntries).length ≤ i) (hslot : i < maxEntries) :
    Memory.read T i = 0x0000#16 := by
  rcases Nat.lt_or_eq_of_le hi with hlt | rfl
  · exact G.padded i hlt hslot
  · exact G.endWord

theorem Table.Good.read_ne_zero {T : Table} {maxLen maxEntries maxFields i : Nat}
    (G : T.Good maxLen maxEntries maxFields) (hi : i < (T.program maxEntries).length) :
    Memory.read T i ≠ 0x0000#16 := by
  intro hz
  have hword := G.word i hi
  rw [hz, decodeDesc_zero] at hword
  exact G.notEnd _ (List.getElem_mem hi) (Except.ok.inj hword).symm

/-- WF1 and WF2 settle the list of descriptors. -/
theorem Table.program_eq {T : Table} {n : Nat} {es : List Instr} (hends : es.length < n)
    (hend : Memory.read T es.length = 0x0000#16)
    (hword : ∀ (j : Nat) (h : j < es.length),
      Memory.read T j ≠ 0x0000#16 ∧ decodeDesc (Memory.read T j) = .ok es[j]) : T.program n = es := by
  have hlen : (T.entryWords n).length = es.length :=
    Table.length_entryWords_eq hends hend fun i hi => (hword i hi).1
  have hdec (i : Nat) (hi : i < (T.entryWords n).length) : decodeDesc (T.entryWords n)[i] = .ok (es[i]'(hlen ▸ hi)) := by
    rw [Table.getElem_entryWords]
    exact (hword i (hlen ▸ hi)).2
  obtain ⟨fs, hfs, hfslen, hfsdec⟩ := filterMap_decode (ws := T.entryWords n) fun w hw => by
    obtain ⟨i, hi, rfl⟩ := List.getElem_of_mem hw
    rw [hdec i hi]
    rfl
  rw [Table.program, hfs]
  refine List.ext_getElem (hfslen.trans hlen) fun i hi hi' => ?_
  have hi'' : i < (T.entryWords n).length := hfslen ▸ hi
  exact Except.ok.inj ((hfsdec i hi'' hi).symm.trans (hdec i hi''))

theorem firstDefect_eq_none_of_forall {k : WfCheck} {ps : List Placed}
    (h : ∀ p ∈ ps, p.desc.defect p.cursor ≠ some k) : firstDefect k ps = none := by
  simpa [firstDefect] using h

theorem Table.Good.firstDefect_eq_none {T : Table} {maxLen maxEntries maxFields : Nat}
    (G : T.Good maxLen maxEntries maxFields) (k : WfCheck) :
    firstDefect k (place 0 0 (T.program maxEntries)) = none := by
  refine firstDefect_eq_none_of_forall fun p hp => ?_
  obtain ⟨i, hi, rfl⟩ := mem_place hp
  rw [G.placed i hi]
  exact nofun

/-- The converse of `Table.good_of_check`: the checks ask for no more. -/
theorem Table.Good.check_eq_none {T : Table} {maxLen maxEntries maxFields : Nat}
    (G : T.Good maxLen maxEntries maxFields) : T.check maxLen maxEntries maxFields = none := by
  have hlen : (T.entryWords maxEntries).length = (T.program maxEntries).length :=
    Table.length_entryWords_eq G.ends G.endWord fun i hi => G.read_ne_zero hi
  have hlegal : (T.entryWords maxEntries).findIdx? (fun w => (decodeDesc w).toOption.isNone) = none := by
    refine List.findIdx?_eq_none_iff.mpr fun w hw => ?_
    obtain ⟨i, hi, rfl⟩ := List.getElem_of_mem hw
    rw [Table.getElem_entryWords, G.word i (hlen ▸ hi)]
    rfl
  have hpadded : ((T.slots maxEntries).drop ((T.program maxEntries).length + 1)).findIdx? (fun w => w != 0x0000#16) =
      none := by
    refine List.findIdx?_eq_none_iff.mpr fun w hw => ?_
    obtain ⟨i, hi, rfl⟩ := List.getElem_of_mem hw
    have hslot : (T.program maxEntries).length + 1 + i < maxEntries := by
      rw [List.length_drop, Table.length_slots] at hi
      omega
    simp [Table.slots, G.padded _ (show _ < (T.program maxEntries).length + 1 + i by omega) hslot]
  simp [Table.check, hlen, hlegal, hpadded, G.firstDefect_eq_none, Nat.not_le.mpr G.ends, G.aligned,
    Nat.not_lt.mpr G.fits, Nat.not_lt.mpr G.records]

end Sys2Proof

namespace Sys2Proof.Machine

/-- Settles O3: a descriptor's op and count are those of the word it was decoded from, and each request kind has one
code. -/
theorem encodeDecodeRoundTrip : Obligations.EncodeDecodeRoundTrip := by
  unfold Obligations.EncodeDecodeRoundTrip
  intro x i h
  cases x with
  | desc w => exact ⟨decodeDesc_wf h, encode_of_decodeDesc h⟩
  | req op => rcases decodeReq_eq_ok h with ⟨rfl, rfl⟩ | ⟨rfl, rfl⟩ <;> exact ⟨rfl, rfl⟩

/-! ### A step runs the decoded instruction (R80, R81, R84) -/

/-- Settles O5: a turn of the walk fetches the word of the entry index and runs what it decodes to. -/
theorem stepRunsFetchedDescriptor : Obligations.StepRunsFetchedDescriptor := by
  unfold Obligations.StepRunsFetchedDescriptor
  intro s t e ht hi he
  rw [step_walk ht, stepWalk, if_neg (Nat.not_le.mpr hi), State.fetchWord, he]

/-- Settles O6: taking the oldest request runs what its `req_op` decodes to. -/
theorem stepRunsOldestRequest : Obligations.StepRunsOldestRequest := by
  unfold Obligations.StepRunsOldestRequest
  intro s r rs e ht hq he
  rw [step_request ht hq, stepRequest, he]

theorem eq_ok_of_toOption {α ε : Type} {x : Except ε α} {a : α} (h : x.toOption = some a) : x = .ok a := by
  cases x with
  | error => cases h
  | ok => cases h; rfl

/-- A placed descriptor word is entry 0 of version A, where the walk starts. -/
theorem step_withBlockOf_desc {w : Word} {e : Instr} (he : decodeDesc w = .ok e) (s : State) :
    step (s.withBlockOf w (some loadedTxn) s.requests) = exec e (s.withBlockOf w (some loadedTxn) s.requests) := by
  rw [State.withBlockOf_eq he]
  refine stepRunsFetchedDescriptor _ loadedTxn e rfl (by decide : 0 < 4) ?_
  exact (congrArg decodeDesc (read_loadedBuild w)).trans he

/-- A placed request kind is that of the one request at the port of an idle block. -/
theorem step_withBlockOf_req {op : BitVec 2} {e : Instr} (he : decodeReq op = .ok e) (s : State) :
    step (s.withBlockOf 0x0000#16 none [loadedRequest op]) =
      exec e (s.withBlockOf 0x0000#16 none [loadedRequest op]) := by
  rw [State.withBlockOf_eq decodeDesc_zero]
  exact stepRunsOldestRequest _ (loadedRequest op) [] e rfl rfl he

/-- Settles O8: a descriptor word is placed at entry 0 of a walk, a request kind at the port of an idle block. -/
theorem placedWordRunsNext : Obligations.PlacedWordRunsNext := by
  unfold Obligations.PlacedWordRunsNext
  intro s w e
  exact ⟨fun h => step_withBlockOf_desc (eq_ok_of_toOption h) s, fun h => step_withBlockOf_req (eq_ok_of_toOption h) s⟩

/-! ### Descriptors of a walk (R83, R86, R88) -/

theorem runDescriptor_noSlot {e : Instr} {f : Txn → Except Fault Txn} {s : State} {t : Txn} (ht : s.txn = some t)
    (hd : e.defect t.c = none) (ho : e.isOutput = true) (hk : s.build.maxFields ≤ t.k) :
    runDescriptor e f s = .refused (.outsideWalk t.ver .wf7 t.i) := by
  simp [runDescriptor, ht, hd, ho, hk]

/-- An output descriptor without a free slot is refused as WF7 (R83). -/
theorem exec_noSlot {e : Instr} {s : State} {t : Txn} (ht : s.txn = some t) (hd : e.defect t.c = none)
    (ho : e.isOutput = true) (hk : s.build.maxFields ≤ t.k) :
    exec e s = .refused (.outsideWalk t.ver .wf7 t.i) := by
  cases e with
  | endTable | skip n | pad n | decode | tableRead => cases ho
  | str n | u8 | u16le | u16be | bits n => exact runDescriptor_noSlot ht hd ho hk

/-- Settles O17: a descriptor's defect names the check that the step refuses it by; a value without a slot comes after
the defects. -/
theorem misplacedDescriptorsRefused : Obligations.MisplacedDescriptorsRefused := by
  unfold Obligations.MisplacedDescriptorsRefused
  intro s t ht
  refine ⟨fun e hdesc hwf => ?wf1, fun e hwf hc hkind => ?wf3, fun e n hwf hkind hn => ?wf4, fun hc => ?wf5,
    fun e hd ho hk => exec_noSlot ht hd ho hk⟩
  case wf1 => exact exec_defect hdesc ht (Instr.defect_of_not_wf hwf t.c)
  case wf3 =>
    have hkind : e.ByteSized := hkind
    exact exec_defect hkind.isDescriptor ht (by rw [hkind.defect hwf, if_neg hc])
  case wf4 =>
    have hkind : e.SubByte n := hkind
    exact exec_defect hkind.isDescriptor ht (by rw [hkind.defect hwf, if_neg (Nat.not_le.mpr hn)])
  case wf5 => exact exec_defect rfl ht (by rw [Instr.defect_endTable, if_neg hc])

/-- Settles O18: the checks find the first illegal word before END and an END that is missing, so every slot of a built
table decodes, and the index of a walk past the slots is refused before any fetch. -/
theorem illegalEntriesRefused : Obligations.IllegalEntriesRefused := by
  unfold Obligations.IllegalEntriesRefused
  refine ⟨fun b v j m hjm hm hend hlegal hill => ?illegal, fun b v hne => ?endless, fun s v i hi => ?slots,
    fun s t ht hi => ?past⟩
  case illegal =>
    have hcheck : b.check v = some (.wf1, j) := Table.check_of_illegalWord hjm hm hend hlegal hill b.maxLen b.maxFields
    exact ⟨hcheck, Build.construct_error_of_check hcheck⟩
  case endless =>
    have hall : b.maxEntries ≤ ((b.table v).entryWords b.maxEntries).length := by
      by_contra hlt
      have hlt := Nat.not_le.mp hlt
      exact hne _ hlt ((b.table v).read_at_end b.maxEntries hlt)
    have hcheck : b.check v = some (.wf2, b.maxEntries) := Table.check_eq_wf2 hall b.maxLen b.maxFields
    exact ⟨hcheck, Build.construct_error_of_check hcheck⟩
  case slots =>
    have hdec := (s.tableGood v).decodes hi
    refine ⟨fun hill => ?_, hdec⟩
    exact (decodeDesc_isError_iff _).mp ((illegalWordsExactly _).mpr hill) hdec
  case past => rw [step_walk ht, stepWalk, if_pos hi]

/-- Settles O20: a descriptor that fits adds the values of its field and moves on by its width; one that does not ends
the transaction. -/
theorem fitCheckDecides : Obligations.FitCheckDecides := by
  unfold Obligations.FitCheckDecides
  intro s t e ht hwalk hd hslot
  refine ⟨fun hfit => ⟨(fieldValue e t.buf t.c).toList, length_toList_fieldValue e t.buf t.c, ?_⟩, fun hmis => ?_⟩
  · have hk : t.k + (fieldValue e t.buf t.c).toList.length = if e.isOutput then t.k + 1 else t.k := by
      rw [length_toList_fieldValue]
      split <;> rfl
    rw [exec_fits hwalk ht hd hslot hfit, hk]
    rfl
  · exact exec_misfits hwalk ht hd hslot hmis

/-- Settles O16: only the word `0x0000` is END, and END answers with the record it finds. -/
theorem endAnswersRecord : Obligations.EndAnswersRecord := by
  unfold Obligations.EndAnswersRecord
  exact fun s t ht hc => ⟨decodeDesc_zero, exec_end ht hc⟩

/-- Settles O53: END stands at the table's end, and the record of a walk that has passed every descriptor is the record of
the whole table. -/
theorem endCompletesWalk : Obligations.EndCompletesWalk := by
  unfold Obligations.EndCompletesWalk
  intro s t hI ht hi
  have G := s.tableGood t.ver
  obtain ⟨-, hgood, -⟩ := hI
  obtain ⟨-, -, -, hc, -, hrec, hk⟩ := hgood t ht
  rw [hi, List.take_length] at hc hrec hk
  have hword : Memory.read (s.build.table t.ver) t.i = 0x0000#16 := hi ▸ G.endWord
  have haligned : t.c % 8 = 0 := hc ▸ G.aligned
  exact ⟨by rw [hword, decodeDesc_zero], by rw [exec_end ht haligned, hrec, hk]; rfl⟩

/-! ### Requests (R66, R80, R92) -/

theorem ofSelector_eq_some {ver : BitVec 8} {v : Version} (h : ver = 0#8 ∧ v = .a ∨ ver = 1#8 ∧ v = .b) :
    Version.ofSelector ver = some v := by
  rcases h with ⟨rfl, rfl⟩ | ⟨rfl, rfl⟩ <;> rfl

theorem withVersion_eq {r : Request} {v : Version} (h : Version.ofSelector r.ver = some v) (s : State)
    (f : Version → Result) : withVersion s r f = f v := by
  rw [withVersion, h]

/-- Settles O21: a DECODE that passes the checks of its length and its version starts the walk. -/
theorem decodeStartsWalk : Obligations.DecodeStartsWalk := by
  unfold Obligations.DecodeStartsWalk
  intro s r rs v ht hq hlen hver
  refine ⟨rfl, ?_⟩
  rw [exec, execDecode, onRequest_eq ht hq, if_neg (Nat.not_lt.mpr hlen), withVersion_eq (ofSelector_eq_some hver)]
  simp [State.withTxn, State.takeRequest, Txn.start, hq]

/-- Settles O22: a TABLE_READ that passes the checks of its index and its version answers the slot's word, and from END
on a built table holds `0x0000`. -/
theorem tableReadAnswersWord : Obligations.TableReadAnswersWord := by
  unfold Obligations.TableReadAnswersWord
  intro s r rs v ht hq hidx hver
  refine ⟨rfl, ?_, fun hend => (s.tableGood v).read_from_end hend hidx⟩
  rw [exec, execTableRead, onRequest_eq ht hq, if_neg (Nat.not_le.mpr hidx), withVersion_eq (ofSelector_eq_some hver),
    answer_eq ht hq]

/-- R96, decision D4: the header and the name come first in the layout B of conforming parameters. -/
theorem take_two_program_of_conforms {b : Build} (h : b.conforms = true) : (b.program .b).take 2 = [.str 4, .str 16] := by
  simp only [Build.conforms, knownContentB, Bool.and_eq_true, beq_iff_eq] at h
  simp [h]

/-- Entry 0 of version B after reset is the header. -/
theorem reset_header_word : Memory.read (State.reset.build.table .b) 0 = 0x1004#16 := by
  obtain ⟨rest, hprog⟩ : ∃ rest, State.reset.build.program .b = .str 4 :: rest := by
    have htake := take_two_program_of_conforms Config.build.ok
    exact ⟨_, (List.take_append_drop 2 _).symm.trans (congrArg (· ++ _) htake)⟩
  have hpos : 0 < (State.reset.build.program .b).length := by simp [hprog]
  have hdec : decodeDesc (Memory.read (State.reset.build.table .b) 0) = .ok (.str 4) := by
    refine ((State.reset.tableGood .b).word 0 hpos).trans (congrArg Except.ok ?_)
    exact (List.getElem_of_eq hprog hpos).trans rfl
  exact (Encoded.desc.inj (encode_of_decodeDesc hdec)).symm

/-- Settles O32: the request is a TABLE_READ of the slot that holds the header. -/
theorem resetTableReadsHeaderWord : Obligations.ResetTableReadsHeaderWord := by
  unfold Obligations.ResetTableReadsHeaderWord
  intro r hop hver hidx
  have hslot : r.idx < (State.reset.submit r).build.maxEntries := by
    rw [hidx]
    exact Nat.zero_lt_of_lt (State.reset.tableGood .b).ends
  obtain ⟨hdec, hexec, -⟩ :=
    tableReadAnswersWord (State.reset.submit r) r [] .b rfl rfl hslot (.inr ⟨hver, rfl⟩)
  rw [stepRunsOldestRequest _ r [] .tableRead rfl rfl (hop ▸ hdec), hexec, hidx, State.submit_build, reset_header_word]
  rfl

/-! ### Layout tables (R83) -/

/-- Settles O29: the checks pass exactly for the tables that are good, and the rule's list of descriptors is the
table's. -/
theorem wellFormednessIsChecks : Obligations.WellFormednessIsChecks := by
  unfold Obligations.WellFormednessIsChecks
  intro T maxLen maxEntries maxFields
  constructor
  · intro hcheck
    have G := Table.good_of_check hcheck
    have hplaced (j : Nat) (hj : j < (T.program maxEntries).length) :=
      (Instr.defect_eq_none_iff (decodeDesc_inWalk (G.word j hj) (G.notEnd _ (List.getElem_mem hj)))
        (decodeDesc_wf (G.word j hj)) _).mp (G.placed j hj)
    exact ⟨T.program maxEntries, ⟨G.ends, G.endWord⟩, fun j hj => ⟨G.read_ne_zero hj, G.word j hj⟩,
      fun j hj => (hplaced j hj).1, fun j n hj => (hplaced j hj).2 n, G.aligned, G.fits, G.records, G.padded⟩
  · rintro ⟨es, ⟨hends, hend⟩, hword, hbytes, hbits, haligned, hfits, hrecords, hpadded⟩
    obtain rfl := Table.program_eq hends hend hword
    have hne (j : Nat) (hj : j < (T.program maxEntries).length) : (T.program maxEntries)[j] ≠ .endTable := fun he =>
      (hword j hj).1 (decodeDesc_eq_end (he ▸ (hword j hj).2))
    refine Table.Good.check_eq_none ⟨hends, hend, fun j hj => (hword j hj).2, fun e he => ?notEnd, fun j hj => ?placed,
      haligned, hfits, hrecords, hpadded⟩
    case notEnd =>
      obtain ⟨j, hj, rfl⟩ := List.getElem_of_mem he
      exact hne j hj
    case placed =>
      have hdec := (hword j hj).2
      exact (Instr.defect_eq_none_iff (decodeDesc_inWalk hdec (hne j hj)) (decodeDesc_wf hdec) _).mpr
        ⟨hbytes j hj, fun n => hbits j n hj⟩

/-! ### The whole transaction (R87, R89, R90) -/

/-- A DECODE answers with the complete record or with a truncation (R89). -/
theorem decodeAll_cases (es : List Instr) (buf : Buffer) (len : Nat) :
    (cursorAfter 0 es ≤ 8 * len ∧ decodeAll es buf len = .okDecode (recordFrom buf 0 es) (outputCount es)) ∨
      (8 * len < cursorAfter 0 es ∧ ∃ l e, decodeAll es buf len = .truncatedInput l e) := by
  have hnone := firstMisfit_eq_none (i := 0) (k := 0) (es := es) (Nat.zero_le (8 * len))
  rw [decodeAll]
  cases hmis : firstMisfit len 0 0 0 es with
  | none => exact .inl ⟨hnone.mp hmis, rfl⟩
  | some x =>
    rw [hmis] at hnone
    exact .inr ⟨Nat.lt_of_not_le fun hle => Option.some_ne_none x (hnone.mpr hle), _, _, rfl⟩

/-- R87 for a table of a built block, with the whole answer where there is one. -/
theorem decodeAll_program_cases (b : Block) (v : Version) (buf : Buffer) (len : Nat) :
    (b.build.requiredLen v ≤ len ∧ decodeAll (b.build.program v) buf len =
        .okDecode (recordFrom buf 0 (b.build.program v)) (outputCount (b.build.program v))) ∨
      (len < b.build.requiredLen v ∧ ∃ l e, decodeAll (b.build.program v) buf len = .truncatedInput l e) := by
  have hcases := decodeAll_cases (b.build.program v) buf len
  rw [b.cursorAfter_program v] at hcases
  exact hcases.imp (fun ⟨hle, h⟩ => ⟨by omega, h⟩) fun ⟨hlt, h⟩ => ⟨by omega, h⟩

theorem decodeAll_program_ok {b : Block} {v : Version} {len : Nat} (h : b.build.requiredLen v ≤ len) (buf : Buffer) :
    decodeAll (b.build.program v) buf len =
      .okDecode (recordFrom buf 0 (b.build.program v)) (outputCount (b.build.program v)) := by
  rcases decodeAll_program_cases b v buf len with ⟨-, hok⟩ | ⟨hlt, -⟩
  · exact hok
  · exact absurd h (Nat.not_le.mpr hlt)

/-- Settles O33: a table's descriptors end at `8 * R(v)` bits, and all fit exactly when the last does. -/
theorem truncationIffTooShort : Obligations.TruncationIffTooShort := by
  unfold Obligations.TruncationIffTooShort
  intro b v buf len
  rcases decodeAll_program_cases b v buf len with ⟨hle, hok⟩ | ⟨hlt, l, e, htrunc⟩
  · simp [hok, hle, Nat.not_lt.mpr hle]
  · simp [htrunc, hlt, Nat.not_le.mpr hlt]

/-- Settles O34: both answers are the complete record, which the first `R(v)` bytes determine. -/
theorem trailingBytesIgnored : Obligations.TrailingBytesIgnored := by
  unfold Obligations.TrailingBytesIgnored
  intro b v buf buf' len hlen hbuf
  rw [decodeAll_program_ok hlen, decodeAll_program_ok le_rfl, recordFrom_congr hbuf (b.cursorAfter_program v).le]

/-- Settles O35: the run of the oldest request answers it, and an answer takes the request and adds the response. -/
theorem stepsAnswerTheTransaction : Obligations.StepsAnswerTheTransaction := by
  unfold Obligations.StepsAnswerTheTransaction
  intro s r rs hI ht hq
  obtain ⟨n, hn, hrun⟩ := run_oldest_request hI ht hq
  exact ⟨n, hn, by rw [hrun, answer_eq ht hq]⟩

/-- Settles O37: a step that ends a walk answers as the whole walk does. -/
theorem allOrNothing : Obligations.AllOrNothing := by
  unfold Obligations.AllOrNothing
  intro s s' t hI ht hstep hdone
  rcases walk_step hI ht with hans | ⟨_, hpass, -⟩
  · cases hans.symm.trans hstep
    rcases decodeAll_cases (s.build.program t.ver) t.buf t.len with ⟨-, hok⟩ | ⟨-, l, e, htrunc⟩
    · exact .inl ⟨_, by rw [State.finish_responses, hok], rfl, length_recordFrom _ _ _⟩
    · exact .inr ⟨l, e, by rw [State.finish_responses, htrunc]⟩
  · cases hpass.symm.trans hstep
    cases hdone

/-- Settles O38: END stands in a slot of the table, a step passes one descriptor or ends the walk, and the walk runs to
its answer. -/
theorem walkTerminates : Obligations.WalkTerminates := by
  unfold Obligations.WalkTerminates
  intro s t hI ht
  have G := s.tableGood t.ver
  refine ⟨G.ends, (congrArg decodeDesc G.endWord).trans decodeDesc_zero, fun s' hstep => ?_, ?_⟩
  · rcases walk_step hI ht with hans | ⟨_, hpass, -⟩
    · cases hans.symm.trans hstep
      exact .inl rfl
    · cases hpass.symm.trans hstep
      exact .inr ⟨_, rfl, rfl⟩
  · obtain ⟨n, hn, hrun⟩ := run_walk hI ht
    obtain ⟨-, hgood, -⟩ := hI
    obtain ⟨-, -, hi, -⟩ := hgood t ht
    exact ⟨n, _, by omega, hrun⟩

/-- Settles O41: a walk answers or passes a descriptor, an idle block answers its oldest request or starts its walk, and
with no request it stays as it is. -/
theorem builtBlockAlwaysSteps : Obligations.BuiltBlockAlwaysSteps := by
  unfold Obligations.BuiltBlockAlwaysSteps
  intro s hI
  cases ht : s.txn with
  | some t => exact (walk_step hI ht).elim (fun h => ⟨_, h⟩) fun ⟨_, hpass, _⟩ => ⟨_, hpass⟩
  | none =>
    cases hq : s.requests with
    | nil => exact ⟨s, step_idle ht hq⟩
    | cons r rs => exact (request_cases ht hq).elim (fun h => ⟨_, h⟩) fun ⟨_, _, _, _, hstart⟩ => ⟨_, hstart⟩

end Sys2Proof.Machine

namespace Sys2Proof

/-! ### Words with a count (R60, R71) -/

/-- The word with `op` in bits 15:12 and `n` in bits 7:0 decodes to the kind that they name. -/
theorem decodeDesc_op_or_count {op n : Nat} {e : Instr} (hop : op < 8) (hn : n < 256) (hkind : kindOf op n = some e)
    (hwf : e.wf = true) : decodeDesc (BitVec.ofNat 16 (4096 * op) ||| BitVec.ofNat 16 n) = .ok e := by
  have hword : 4096 * op + n = 4096 * op ||| n := Nat.two_pow_add_eq_or_of_lt (i := 12) (hn.trans (by decide)) op
  rw [← BitVec.ofNat_or, ← hword]
  exact decode_descWord hop hn hkind hwf

/-- The two kinds that count bytes take the counts 1 to 255 (R63). -/
theorem Instr.wf_of_byteCount {n : Nat} (hpos : 1 ≤ n) (hn : n ≤ 255) :
    (Instr.str n).wf = true ∧ (Instr.skip n).wf = true := by
  simp [Instr.wf, hpos, hn]

theorem Instr.ByteSized.inWalk {e : Instr} (h : e.ByteSized) : e.inWalk = true := by
  rcases h with rfl | rfl | rfl | ⟨n, rfl⟩ | ⟨n, rfl⟩ <;> rfl

theorem Instr.ByteSized.defect_of_aligned {e : Instr} (h : e.ByteSized) (hwf : e.wf = true) {c : Nat}
    (hc : c % 8 = 0) : e.defect c = none := by
  rw [h.defect hwf, if_pos hc]

end Sys2Proof

namespace Sys2Proof.Machine

/-! ### The byte-aligned descriptors (R42, R101 to R105) -/

/-- One byte above another as a number. -/
theorem toNat_append_bytes (hi lo : Byte) : (hi ++ lo).toNat = 256 * hi.toNat + lo.toNat := by
  rw [BitVec.toNat_append, ← Nat.shiftLeft_add_eq_or_of_lt lo.isLt, Nat.shiftLeft_eq, Nat.mul_comm]

theorem valueLE_eq_toNat_append (b0 b1 : Byte) : valueLE b0 b1 = (b1 ++ b0).toNat := by
  rw [toNat_append_bytes, valueLE, Nat.add_comm]

theorem valueBE_eq_toNat_append (b0 b1 : Byte) : valueBE b0 b1 = (b0 ++ b1).toNat :=
  (toNat_append_bytes b0 b1).symm

/-- At a byte boundary the fit check of a descriptor of `m` bytes (R86) compares byte addresses: the descriptor passes
its bytes when the buffer holds them all, and truncates when it does not. -/
theorem exec_byteSized {e : Instr} {s : State} {t : Txn} {m : Nat} (hkind : e.ByteSized) (hwf : e.wf = true)
    (hwidth : e.width = 8 * m) (ht : s.txn = some t) (hc : t.c % 8 = 0)
    (hslot : e.isOutput = true → t.k < s.build.maxFields) :
    (t.c / 8 + m ≤ t.len → exec e s = .next (s.withTxn (t.after e))) ∧
      (t.len < t.c / 8 + m → exec e s = .next (s.finish t.truncation)) := by
  have hplace : e.defect t.c = none := hkind.defect_of_aligned hwf hc
  constructor
  · exact fun hfit => exec_fits hkind.inWalk ht hplace hslot (by omega)
  · exact fun hmis => exec_misfits hkind.inWalk ht hplace hslot (by omega)

/-- Settles O9: the value of STR is the run of cells at the cursor, each cell in ascending order. -/
theorem strEmitsItsBytes : Obligations.StrEmitsItsBytes := by
  unfold Obligations.StrEmitsItsBytes
  intro s t n hpos hn ht hc hslot
  obtain ⟨hwf, -⟩ := Instr.wf_of_byteCount hpos hn
  obtain ⟨hfits, hmisfits⟩ := exec_byteSized (m := n) (by simp [Instr.ByteSized]) hwf rfl ht hc fun _ => hslot
  refine ⟨decodeDesc_op_or_count (op := 1) (by decide) (by omega) rfl hwf, fun hfit => ?_, hmisfits⟩
  rw [hfits hfit, ← Memory.readList_eq_map]
  rfl

/-- Settles O10: the value of U8 is the cell at the cursor. -/
theorem u8EmitsItsByte : Obligations.U8EmitsItsByte := by
  unfold Obligations.U8EmitsItsByte
  intro s t ht hc hslot
  exact ⟨rfl, exec_byteSized (m := 1) (.inl rfl) rfl rfl ht hc fun _ => hslot⟩

/-- Settles O11: the little-endian value is the second byte above the first. -/
theorem u16leEmitsLittleEndian : Obligations.U16leEmitsLittleEndian := by
  unfold Obligations.U16leEmitsLittleEndian
  intro s t ht hc hslot
  rw [← valueLE_eq_toNat_append]
  exact ⟨rfl, exec_byteSized (m := 2) (.inr (.inl rfl)) rfl rfl ht hc fun _ => hslot⟩

/-- Settles O12: the big-endian value is the first byte above the second. -/
theorem u16beEmitsBigEndian : Obligations.U16beEmitsBigEndian := by
  unfold Obligations.U16beEmitsBigEndian
  intro s t ht hc hslot
  rw [← valueBE_eq_toNat_append]
  exact ⟨rfl, exec_byteSized (m := 2) (.inr (.inr (.inl rfl))) rfl rfl ht hc fun _ => hslot⟩

/-- Settles O13: SKIP passes its bytes as a field does, and has no value to add to the record. -/
theorem skipPassesWholeBytes : Obligations.SkipPassesWholeBytes := by
  unfold Obligations.SkipPassesWholeBytes
  intro s t n hpos hn ht hc
  obtain ⟨-, hwf⟩ := Instr.wf_of_byteCount hpos hn
  obtain ⟨hfits, hmisfits⟩ := exec_byteSized (m := n) (by simp [Instr.ByteSized]) hwf rfl ht hc nofun
  refine ⟨decodeDesc_op_or_count (op := 6) (by decide) (by omega) rfl hwf, fun hfit => ?_, hmisfits⟩
  have hrecord : t.record ++ (fieldValue (.skip n) t.buf t.c).toList = t.record := List.append_nil _
  rw [hfits hfit, Txn.after, hrecord]
  rfl

end Sys2Proof.Machine

namespace Sys2Proof

/-! ### Sub-byte descriptors stand in one byte (R47, R63) -/

theorem Instr.SubByte.inWalk {e : Instr} {n : Nat} (h : e.SubByte n) : e.inWalk = true := by
  rcases h with rfl | rfl <;> rfl

theorem Instr.SubByte.width_eq {e : Instr} {n : Nat} (h : e.SubByte n) : e.width = n := by
  rcases h with rfl | rfl <;> rfl

theorem Instr.SubByte.defect_of_inside {e : Instr} {n : Nat} (h : e.SubByte n) (hwf : e.wf = true) {c : Nat}
    (hin : c % 8 + n ≤ 8) : e.defect c = none := by
  rw [h.defect hwf, if_pos hin]

end Sys2Proof

namespace Sys2Proof.Machine

/-! ### The sub-byte descriptors (R45, R120 to R123) -/

/-- The field of BITS as R120 writes it: the byte shifted down to the field, then the low `n` bits. -/
theorem bitField_eq_shift_mod (b : Byte) {p n : Nat} (hp : p < 8) (h : p + n ≤ 8) :
    bitField b p n = (b >>> (8 - p - n)).toNat % 2 ^ n := by
  rw [bitField_eq_div_mod b hp h, BitVec.toNat_ushiftRight, Nat.shiftRight_eq_div_pow]

/-- A field is its first `n` bits above the `m` bits that follow them. -/
theorem bitField_add (b : Byte) {p n m : Nat} (hp : p + n < 8) (h : p + n + m ≤ 8) :
    bitField b p (n + m) = bitField b p n * 2 ^ m + bitField b (p + n) m := by
  have hjoint : 8 - p - (n + m) = 8 - (p + n) - m := by omega
  have hfirst : 8 - p - n = 8 - (p + n) - m + m := by omega
  rw [bitField_eq_div_mod b (by omega) (by omega), bitField_eq_div_mod b (by omega) (by omega),
    bitField_eq_div_mod b hp h, hjoint, hfirst]
  generalize 8 - (p + n) - m = low
  calc b.toNat / 2 ^ low % 2 ^ (n + m)
      = b.toNat / 2 ^ low % 2 ^ m + 2 ^ m * (b.toNat / 2 ^ low / 2 ^ m % 2 ^ n) := by
        rw [Nat.add_comm n, Nat.pow_add, Nat.mod_mul]
    _ = b.toNat / 2 ^ (low + m) % 2 ^ n * 2 ^ m + b.toNat / 2 ^ low % 2 ^ m := by
        rw [Nat.div_div_eq_div_mul, ← Nat.pow_add, Nat.add_comm, Nat.mul_comm]

/-- A descriptor without output moves the cursor and the entry index only. -/
theorem Txn.after_of_not_output {e : Instr} (h : e.isOutput = false) (t : Txn) :
    t.after e = { t with i := t.i + 1, c := t.c + e.width } := by
  have hvalue : fieldValue e t.buf t.c = none := by
    rw [← Option.not_isSome_iff_eq_none, isSome_fieldValue, h]
    decide
  simp [Txn.after, hvalue, h]

/-- A well-formed sub-byte descriptor inside one byte passes its bits or truncates, by the fit check of R86 alone. -/
theorem exec_subByte {e : Instr} {s : State} {t : Txn} {n : Nat} (hkind : e.SubByte n) (hwf : e.wf = true)
    (ht : s.txn = some t) (hin : t.c % 8 + n ≤ 8) (hslot : e.isOutput = true → t.k < s.build.maxFields) :
    (t.c + n ≤ 8 * t.len → exec e s = .next (s.withTxn (t.after e))) ∧
      (8 * t.len < t.c + n → exec e s = .next (s.finish t.truncation)) := by
  have hplace : e.defect t.c = none := hkind.defect_of_inside hwf hin
  rw [← hkind.width_eq]
  exact ⟨exec_fits hkind.inWalk ht hplace hslot, exec_misfits hkind.inWalk ht hplace hslot⟩

/-- Settles O14: the value of BITS is the field of the byte at the cursor. -/
theorem bitsEmitsPackedField : Obligations.BitsEmitsPackedField := by
  unfold Obligations.BitsEmitsPackedField
  intro s t n hpos hn ht hin hslot
  have hwf : (Instr.bits n).wf = true := by simp [Instr.wf, hpos, hn]
  rw [← bitField_eq_shift_mod _ (Nat.mod_lt t.c (by decide)) hin]
  exact ⟨decodeDesc_op_or_count (op := 5) (by decide) (by omega) rfl hwf,
    exec_subByte (.inl rfl) hwf ht hin fun _ => hslot⟩

/-- Settles O15: PAD passes its bits as a field does, and has no value to add to the record. -/
theorem padPassesBits : Obligations.PadPassesBits := by
  unfold Obligations.PadPassesBits
  intro s t n hpos hn ht hin
  have hwf : (Instr.pad n).wf = true := by simp [Instr.wf, hpos, hn]
  have hexec := exec_subByte (.inr rfl) hwf ht hin nofun
  rw [Txn.after_of_not_output rfl] at hexec
  exact ⟨decodeDesc_op_or_count (op := 7) (by decide) (by omega) rfl hwf, hexec⟩

/-- Settles O26: the two fields split their joint field, and no field overflows its width. -/
theorem declaredOrderFillsByte : Obligations.DeclaredOrderFillsByte := by
  unfold Obligations.DeclaredOrderFillsByte
  intro b p n m hn hm h
  exact ⟨bitField_add b (by omega) h, bitField_lt b (by omega) n⟩

/-- Settles O27: bits inside one byte end past the buffer exactly when that byte lies past it. -/
theorem subByteFitIsBytePresence : Obligations.SubByteFitIsBytePresence := by
  unfold Obligations.SubByteFitIsBytePresence
  intro t n hpos hin
  rw [Txn.fits, decide_eq_true_iff]
  omega

end Sys2Proof.Machine

namespace Sys2Proof.Machine

/-! ### A request's checks, in their order (R80, R145, R146) -/

theorem decodeReq_of_reserved {op : BitVec 2} (hdecode : op ≠ 0b00#2) (hread : op ≠ 0b01#2) :
    decodeReq op = .error .reservedRequest := by
  rw [decodeReq, if_neg hdecode, if_neg hread]

theorem ofSelector_eq_none {ver : BitVec 8} (h : 2 ≤ ver.toNat) : Version.ofSelector ver = none := by
  have hneA : ver ≠ 0#8 := by rintro rfl; exact absurd h (by decide)
  have hneB : ver ≠ 1#8 := by rintro rfl; exact absurd h (by decide)
  rw [Version.ofSelector, if_neg hneA, if_neg hneB]

theorem withVersion_of_unnamed {r : Request} (h : 2 ≤ r.ver.toNat) (s : State) (f : Version → Result) :
    withVersion s r f = .next (s.answer .badVersion) := by
  rw [withVersion, ofSelector_eq_none h]

section
variable {s : State} {r : Request} {rs : List Request} (ht : s.txn = none) (hq : s.requests = r :: rs)
include ht hq

theorem step_reserved (hdecode : r.reqOp ≠ 0b00#2) (hread : r.reqOp ≠ 0b01#2) :
    step s = .next (s.answer .badRequest) := by
  rw [step_request ht hq, stepRequest, decodeReq_of_reserved hdecode hread]

/-- DECODE: the length, then the version. -/
theorem step_decode (hop : r.reqOp = 0b00#2) :
    step s =
      if s.build.maxLen < r.len then .next (s.answer .badRequest)
      else withVersion s r fun v => .next (s.takeRequest.withTxn (Txn.start v r)) := by
  rw [stepRunsOldestRequest s r rs .decode ht hq (by rw [hop]; rfl), exec, execDecode, onRequest_eq ht hq]

/-- TABLE_READ: the index, then the version. -/
theorem step_tableRead (hop : r.reqOp = 0b01#2) :
    step s =
      if s.build.maxEntries ≤ r.idx then .next (s.answer .badRequest)
      else withVersion s r fun v => .next (s.answer (.okTableRead (Memory.read (s.build.table v) r.idx))) := by
  rw [stepRunsOldestRequest s r rs .tableRead ht hq (by rw [hop]; rfl), exec, execTableRead, onRequest_eq ht hq]

end

/-- Settles O23: a reserved kind is refused by its decoding, and each operation checks its operand before the version. -/
theorem requestChecksInOrder : Obligations.RequestChecksInOrder := by
  unfold Obligations.RequestChecksInOrder
  intro s r rs ht hq
  simp only [← answer_eq ht hq]
  refine ⟨step_reserved ht hq, fun hop hlen => ?_, fun hop hidx => ?_, fun hshape hver => ?_⟩
  · rw [step_decode ht hq hop, if_pos hlen]
  · rw [step_tableRead ht hq hop, if_pos hidx]
  · rcases hshape with ⟨hop, hlen⟩ | ⟨hop, hidx⟩
    · rw [step_decode ht hq hop, if_neg (Nat.not_lt.mpr hlen), withVersion_of_unnamed hver]
    · rw [step_tableRead ht hq hop, if_neg (Nat.not_le.mpr hidx), withVersion_of_unnamed hver]

/-- Settles O7: of a block with no walk and no request, the step answers the state itself. -/
theorem idleBlockStaysIdle : Obligations.IdleBlockStaysIdle := by
  unfold Obligations.IdleBlockStaysIdle
  intro s ht hq
  exact step_idle ht hq

end Sys2Proof.Machine

namespace Sys2Proof.Machine

/-! ### Reset and the first request after it (R160 to R162) -/

/-- A reset keeps the requests and the responses, and drops the only working state there is. -/
theorem inv_applyReset {s : State} (hI : s.Inv) : s.applyReset.Inv := by
  obtain ⟨hreq, -, hresp⟩ := hI
  exact ⟨hreq, by simp, hresp⟩

/-- Settles O39: the state after reset has no request, no walk and no response, of which the invariant speaks. -/
theorem invariantAtReset : Obligations.InvariantAtReset := by
  unfold Obligations.InvariantAtReset
  exact ⟨by simp [State.reset], by simp [State.reset], by simp [State.reset]⟩

/-- Settles O47: a reset replaces the working state only. -/
theorem resetLeavesNoTransaction : Obligations.ResetLeavesNoTransaction := by
  unfold Obligations.ResetLeavesNoTransaction
  exact ⟨fun s => ⟨s.applyReset_txn, s.applyReset_block, s.applyReset_responses⟩, rfl, rfl⟩

/-- Settles O48: a reset leaves an idle block in a good state, and the steps of such a block answer its oldest request. -/
theorem firstRequestAfterReset : Obligations.FirstRequestAfterReset := by
  unfold Obligations.FirstRequestAfterReset
  intro s r rs hI hq
  exact stepsAnswerTheTransaction s.applyReset r rs (inv_applyReset hI) s.applyReset_txn hq

/-! ### One response for each request (R165) -/

/-- Settles O45: a step that ends a walk, or takes a request, moves one unit of the count from one place to another, and a
step that does anything else leaves the three places as they are. -/
theorem oneResponsePerRequest : Obligations.OneResponsePerRequest := by
  unfold Obligations.OneResponsePerRequest
  intro s s' hstep
  rcases step_next_cases hstep with
    ⟨rfl, hidle, hnone⟩ | ⟨t, ht, ⟨x, rfl⟩ | ⟨t', rfl, -⟩⟩ | ⟨hidle, r, rs, hq, ⟨x, rfl⟩ | ⟨v, hv, rfl⟩⟩
  case inl => simp [hidle, hnone]
  case inr.inl.inl => simp +arith [ht]
  case inr.inl.inr => simp [ht]
  case inr.inr.inl => simp +arith [hidle, hq]
  case inr.inr.inr => simp [hidle, hq, hv]

end Sys2Proof.Machine

namespace Sys2Proof

/-! ### What a construction gives (R21, R83, R163) -/

/-- A slot that a table does not list reads `0x0000` (R21). -/
theorem Memory.read_of_addresses_lt {w : Nat} {m : Memory w} {n a : Nat} (h : ∀ cell ∈ m, cell.1 < n) (ha : n ≤ a) :
    Memory.read m a = Memory.blank w := by
  induction m with
  | nil => rfl
  | cons cell m ih =>
    have hcell : cell.1 < n := h cell List.mem_cons_self
    rw [Memory.read_cons_of_ne (by omega)]
    exact ih fun c hc => h c (List.mem_cons_of_mem _ hc)

theorem Table.fitsRom_iff {T : Table} {maxEntries : Nat} :
    T.fitsRom maxEntries = true ↔ Memory.wf T = true ∧ ∀ cell ∈ T, cell.1 < maxEntries := by
  simp [Table.fitsRom]

theorem Build.tableRefusal_of_check {b : Build} {v : Version} {k : WfCheck} {j : Nat} (h : b.check v = some (k, j)) :
    b.tableRefusal v = some (.illFormedTable v k j) := by
  rw [Build.tableRefusal, h]

/-- What is built are the parameters given, and they can be built. -/
theorem Build.construct_eq_ok {b : Build} {B : Block} (h : b.construct = .ok B) : B.build = b ∧ b.wf = true := by
  cases hr : b.refusal with
  | some r =>
    rw [Build.construct_of_refusal hr] at h
    cases h
  | none =>
    have hwf : b.wf = true := Build.wf_iff_refusal.mpr hr
    rw [Build.construct_of_wf hwf] at h
    cases h
    exact ⟨rfl, hwf⟩

/-! ### What the layouts' content rules out (R95, R96) -/

theorem Build.conforms_iff {b : Build} :
    b.conforms = true ↔ b.meetsRequirements = true ∧ knownContentA (b.program .a) = true ∧
      knownContentB (b.program .b) = true ∧ skipRegions (b.program .a) ≠ skipRegions (b.program .b) := by
  simp [Build.conforms, and_assoc]

theorem Build.meetsRequirements_iff {b : Build} :
    b.meetsRequirements = true ↔ 1 ≤ b.maxEntries ∧ b.wf = true ∧ b.requiredLen .b = 102 ∧
      ∀ v, b.requiredLen v ≤ b.maxLen := by
  have hboth : (∀ v, b.requiredLen v ≤ b.maxLen) ↔ b.requiredLen .a ≤ b.maxLen ∧ b.requiredLen .b ≤ b.maxLen :=
    ⟨fun h => ⟨h .a, h .b⟩, fun ⟨ha, hb⟩ v => by cases v <;> assumption⟩
  simp [Build.meetsRequirements, hboth, and_assoc]

theorem occurrences_eq_count (e : Instr) (es : List Instr) : occurrences e es = es.count e :=
  List.count_eq_length_filter.symm

/-- The header and the name come first in layout A, as in layout B (`take_two_program_of_conforms`). -/
theorem take_two_of_knownContentA {es : List Instr} (h : knownContentA es = true) : es.take 2 = [.str 4, .str 16] := by
  simp only [knownContentA, Bool.and_eq_true, beq_iff_eq] at h
  exact h.1

/-- Layout A has no output descriptor but strings and packed fields. -/
theorem output_of_knownContentA {es : List Instr} (h : knownContentA es = true) {e : Instr} (he : e ∈ es)
    (hout : e.isOutput = true) : e = .str 4 ∨ e = .str 16 ∨ e = .bits 2 ∨ e = .bits 3 := by
  simp only [knownContentA, Bool.and_eq_true, Bool.or_eq_true, beq_iff_eq] at h
  obtain ⟨-, houtputs⟩ := h
  have hmem : e ∈ es.filter Instr.isOutput := List.mem_filter.mpr ⟨he, hout⟩
  rcases houtputs with hes | hes
  · have hcases : e = .str 4 ∨ e = .str 16 ∨ e = .bits 2 := by simpa [hes] using hmem
    tauto
  · simpa [hes] using hmem

/-- Layout B has no output descriptor but strings, knobs, packed fields and the tempo. -/
theorem output_of_knownContentB {es : List Instr} (h : knownContentB es = true) {e : Instr} (he : e ∈ es)
    (hout : e.isOutput = true) :
    e = .str 4 ∨ e = .str 16 ∨ e = .u8 ∨ e = .bits 1 ∨ e = .bits 2 ∨ e = .bits 3 ∨ e = .u16le := by
  simp only [knownContentB, Bool.and_eq_true, beq_iff_eq, List.all_eq_true, Bool.or_eq_true] at h
  obtain ⟨⟨⟨⟨⟨⟨⟨hfirst, hrest⟩, -⟩, -⟩, -⟩, -⟩, -⟩, -⟩ := h
  rw [← List.take_append_drop 2 es, hfirst, List.mem_append] at he
  rcases he with he | he
  · have hcases : e = .str 4 ∨ e = .str 16 := by simpa using he
    tauto
  · have hcases := hrest e (List.mem_filter.mpr ⟨he, hout⟩)
    tauto

/-- How often the knobs and the tempo stand in layout B. -/
theorem counts_of_knownContentB {es : List Instr} (h : knownContentB es = true) :
    21 ≤ es.count .u8 ∧ es.count .u16le = 1 := by
  simp only [knownContentB, Bool.and_eq_true, decide_eq_true_eq, occurrences_eq_count] at h
  obtain ⟨⟨⟨⟨⟨⟨-, hknobs⟩, -⟩, -⟩, -⟩, htempo⟩, -⟩ := h
  exact ⟨hknobs, htempo⟩

end Sys2Proof

namespace Sys2Proof.Machine

/-! ### The parameters of a block, and of the block at reset (R5, R163) -/

/-- Settles O24: version A's refusal comes before version B's, a construction without a refusal gives just these parameters,
and past the slots a table that fits its ROM lists nothing. -/
theorem unbuildableBlockRefuses : Obligations.UnbuildableBlockRefuses := by
  unfold Obligations.UnbuildableBlockRefuses
  refine ⟨fun b k j => ⟨fun hA => ?versionA, fun hB hA => ?versionB, Build.construct_error_of_check⟩,
    fun b B hB => ?parameters, fun b hpass => ⟨_, Build.construct_of_wf (Build.wf_iff.mpr hpass)⟩,
    fun s v => ⟨Build.check_eq_none s.block.ok v, fun i hi => ?pastSlots⟩⟩
  case versionA =>
    exact Build.construct_of_refusal (by rw [Build.refusal, Build.tableRefusal_of_check hA, Option.some_or])
  case versionB =>
    exact Build.construct_of_refusal (by rw [Build.refusal, hA, Option.none_or, Build.tableRefusal_of_check hB])
  case parameters =>
    obtain ⟨hbuild, hwf⟩ := Build.construct_eq_ok hB
    exact ⟨hbuild, Build.check_eq_none hwf⟩
  case pastSlots =>
    obtain ⟨-, hfits⟩ := Build.wf_iff.mp s.block.ok v
    obtain ⟨-, haddresses⟩ := Table.fitsRom_iff.mp hfits
    exact Memory.read_of_addresses_lt haddresses hi

/-- Settles O31: each part is one of the requirements that the parameters at reset come with, or follows from the output
descriptors that the layouts' content allows. -/
theorem resetParametersKnown : Obligations.ResetParametersKnown := by
  unfold Obligations.ResetParametersKnown
  obtain ⟨hreq, hA, hB, hskips⟩ := Build.conforms_iff.mp Config.build.ok
  obtain ⟨hentries, hwf, hlenB, hlen⟩ := Build.meetsRequirements_iff.mp hreq
  obtain ⟨hknobs, htempo⟩ := counts_of_knownContentB hB
  refine ⟨fun v => ⟨Build.check_eq_none hwf v, hlen v⟩, hlenB, hlenB ▸ hlen .b, hentries, fun v => ?first,
    fun he => ?noU16le, htempo, fun v he => ?noU16be, hknobs, hskips⟩
  case first =>
    cases v with
    | a => exact take_two_of_knownContentA hA
    | b => exact take_two_program_of_conforms Config.build.ok
  case noU16le => simpa using output_of_knownContentA hA he rfl
  case noU16be =>
    cases v with
    | a => simpa using output_of_knownContentA hA he rfl
    | b => simpa using output_of_knownContentB hB he rfl

end Sys2Proof.Machine
